-- ==== Sys2Proof/Word.lean ====
section
/-! DEFINITION. The bit vectors of the core: the 64-bit word, the byte and the 32-bit command header. -/

namespace Sys2Proof

/-- A word is 64 bits and unsigned (spec 00_scope.md R4 `W`, section 5). -/
abbrev Word := BitVec 64

/-- A byte is 8 bits (20_memory.md R50). -/
abbrev Byte := BitVec 8

/-- A command header is one 32-bit word (30_encoding.md R70, 00_scope.md R4 `HDRW`). -/
abbrev Header := BitVec 32

end Sys2Proof
end

