-- ==== Sys2Proof/Machine/Bytes.lean ====
section
/-! DEFINITION. Byte order, decided once: little-endian everywhere (20_memory.md R51 to R53, 92_eei_decisions.md D30).
Notation of 00_scope.md section 5: `le64`, `bytes64`. -/

namespace Sys2Proof.Machine

/-- The number that a byte sequence spells, first byte least significant. -/
def leNat : List Byte → Nat
  | [] => 0
  | b :: bs => b.toNat + 256 * leNat bs

/-- The first `n` bytes of a number, least significant first. -/
def bytesLE : Nat → Nat → List Byte
  | 0, _ => []
  | n + 1, v => BitVec.ofNat 8 v :: bytesLE n (v / 256)

/-- `le64(b0, ..., b7)`: the word `b0 + b1*2^8 + ... + b7*2^56` (00_scope.md section 5). -/
def le64 (bs : List Byte) : Word := BitVec.ofNat 64 (leNat bs)

/-- `bytes64(w)`: the eight bytes `w[7:0], w[15:8], ..., w[63:56]` (00_scope.md section 5). -/
def bytes64 (w : Word) : List Byte := bytesLE 8 w.toNat

end Sys2Proof.Machine
end

