-- ==== Sys2Proof/Syntax.lean ====
section
/-! DEFINITION. A command as the host presents it, and the twelve instructions it can spell
(30_encoding.md R70 to R74). -/

namespace Sys2Proof

/-- A command transaction: the header and the payload, presented together (R70). The payload is what the host sent,
of whatever length; the header declares how long it should be. -/
structure Command where
  hdr     : Header
  payload : List Byte
deriving DecidableEq, Repr

/-- The twelve commands of R72, each with the operands its header leaves free and the payload that came with it.
`len` is the declared payload length, where it is an operand; for the other commands it is part of the encoding. -/
inductive Instr where
  /-- `SETP.DLEN n`, payload one byte (R93) -/
  | setpDlen (payload : List Byte)
  /-- `SETP.KEY k` (R94) -/
  | setpKey (len : BitVec 16) (payload : List Byte)
  /-- `SETP.SALT s` (R95) -/
  | setpSalt (len : BitVec 16) (payload : List Byte)
  /-- `SETP.PERS p` (R96) -/
  | setpPers (len : BitVec 16) (payload : List Byte)
  /-- `SETP.FANOUT n`, payload one byte (R97) -/
  | setpFanout (payload : List Byte)
  /-- `SETP.DEPTH n`, payload one byte (R98) -/
  | setpDepth (payload : List Byte)
  /-- `SETP.LEAF n`, payload four bytes (R99) -/
  | setpLeaf (payload : List Byte)
  /-- `SETP.INNER n`, payload one byte (R100) -/
  | setpInner (payload : List Byte)
  /-- `INIT`, no payload (R131) -/
  | init (payload : List Byte)
  /-- `ABSORB d` (R134) -/
  | absorb (len : BitVec 16) (payload : List Byte)
  /-- `FINAL`, no payload; `e` is the end-of-layer request, header bit 16 (R74, R135) -/
  | final (e : Bool) (payload : List Byte)
  /-- `DLEN`, no payload (R137) -/
  | dlen (payload : List Byte)
deriving DecidableEq, Repr

/-- The payload that came with a command. -/
def Instr.payload : Instr → List Byte
  | .setpDlen p => p
  | .setpKey _ p => p
  | .setpSalt _ p => p
  | .setpPers _ p => p
  | .setpFanout p => p
  | .setpDepth p => p
  | .setpLeaf p => p
  | .setpInner p => p
  | .init p => p
  | .absorb _ p => p
  | .final _ p => p
  | .dlen p => p

/-- The payload length the header declares: its `len` field, fixed or free (R71, R72). -/
def Instr.declaredLen : Instr → Nat
  | .setpDlen _ => 1
  | .setpKey len _ => len.toNat
  | .setpSalt len _ => len.toNat
  | .setpPers len _ => len.toNat
  | .setpFanout _ => 1
  | .setpDepth _ => 1
  | .setpLeaf _ => 4
  | .setpInner _ => 1
  | .init _ => 0
  | .absorb len _ => len.toNat
  | .final _ _ => 0
  | .dlen _ => 0

/-- The mnemonic of a command, as R72 and spec/opcode_table.json spell it. -/
def Instr.mnemonic : Instr → String
  | .setpDlen _ => "SETP.DLEN"
  | .setpKey _ _ => "SETP.KEY"
  | .setpSalt _ _ => "SETP.SALT"
  | .setpPers _ _ => "SETP.PERS"
  | .setpFanout _ => "SETP.FANOUT"
  | .setpDepth _ => "SETP.DEPTH"
  | .setpLeaf _ => "SETP.LEAF"
  | .setpInner _ => "SETP.INNER"
  | .init _ => "INIT"
  | .absorb _ _ => "ABSORB"
  | .final _ _ => "FINAL"
  | .dlen _ => "DLEN"

end Sys2Proof
end

