-- ==== Sys2Proof/Config.lean ====
section
/-! DEFINITION. The fixed parameters of the core (00_scope.md R4). None of them is configurable, and the spec leaves no
value open, so there is no free value here. `N_INSTANCES` and `T_CMD` are open in the spec and no rule reads them
(92_eei_decisions.md, log 10 and log 11). -/

namespace Sys2Proof.Config

/-- `BLOCK`: bytes of a block and of the buffer (R4). -/
@[simp] abbrev block : Nat := 128

/-- `ROUNDS`: rounds of a compression (R4). -/
@[simp] abbrev rounds : Nat := 12

/-- `DLEN_MIN`: the least digest length in bytes (R4). -/
@[simp] abbrev dlenMin : Nat := 1

/-- `DLEN_MAX`: the greatest digest length in bytes (R4). -/
@[simp] abbrev dlenMax : Nat := 64

/-- `KEY_MAX`: the greatest key length in bytes (R4). -/
@[simp] abbrev keyMax : Nat := 64

/-- `INNER_MAX`: the greatest intermediate hash length (R4). -/
@[simp] abbrev innerMax : Nat := 64

/-- `SALT_LEN` and `PERS_LEN`: the only length of a salt or a personalization that is present (R4). -/
@[simp] abbrev saltLen : Nat := 16

/-- `LEN_MAX`: the largest payload of one command in bytes (R4, 92_eei_decisions.md D24). -/
@[simp] abbrev lenMax : Nat := 65535

end Sys2Proof.Config
end

