-- ==== Sys2Proof/WellFormed.lean ====
section
/-! DEFINITION. Which instruction terms are commands of B2B-CMD version 1, and which of those carry the payload they
declare. -/

namespace Sys2Proof

/-- A command's payload has at most `LEN_MAX` bytes (00_scope.md R4, 20_memory.md R50). Every other field of an
instruction is legal at every value of its type: a declared length that disagrees with the payload, or an illegal
parameter value, is a command that the core answers with an error, not an ill-formed one (60_exceptions.md R150). -/
abbrev Instr.WellFormed (i : Instr) : Prop := i.payload.length ≤ Config.lenMax

/-- The payload has the length the header declares (30_encoding.md R70, 70_reset_and_hazards.md R190). -/
abbrev Instr.LengthAgrees (i : Instr) : Prop := i.payload.length = i.declaredLen

end Sys2Proof
end

