-- ==== Sys2Proof/Decode.lean ====
section
/-! DEFINITION. The decoder and the encoder of commands (30_encoding.md R70 to R77). Decoding is total, depends on
nothing but the command (R77), and rejects a reserved header by the clause of R76 that it falls under. -/

namespace Sys2Proof

open Machine

/-- Why a header spells no command: the clauses of R76. Every one of them is answered `USE_RESERVED`. -/
inductive Reserved where
  /-- `op` outside 0x01 to 0x05 -/
  | opcode
  /-- `SETP` with `arg` 0x08 or above -/
  | selector
  /-- a fixed-length command with another `len` -/
  | length
  /-- `INIT`, `ABSORB` or `DLEN` with `arg` not 0, or `FINAL` with `arg[7:1]` not 0 -/
  | argument
deriving DecidableEq, Repr

/-- `hdr[31:24]`, the opcode (R71). -/
def opField (hdr : Header) : BitVec 8 := hdr.extractLsb' 24 8

/-- `hdr[23:16]`, the argument (R71). -/
def argField (hdr : Header) : BitVec 8 := hdr.extractLsb' 16 8

/-- `hdr[15:0]`, the declared payload length (R71). -/
def lenField (hdr : Header) : BitVec 16 := hdr.extractLsb' 0 16

/-- A header from its three fields (R71). -/
def header (op arg : BitVec 8) (len : BitVec 16) : Header := op ++ arg ++ len

/-- `fixedLen want len i`: the command `i` if the length is the one its encoding fixes, else reserved (R72, R76). -/
def fixedLen (want len : BitVec 16) (i : Instr) : Except Reserved Instr :=
  if len = want then .ok i else .error .length

/-- The `SETP` commands by selector (R72, R73). -/
def decodeSetp (arg : BitVec 8) (len : BitVec 16) (payload : List Byte) : Except Reserved Instr :=
  if arg = 0x00 then fixedLen 1 len (.setpDlen payload)
  else if arg = 0x01 then .ok (.setpKey len payload)
  else if arg = 0x02 then .ok (.setpSalt len payload)
  else if arg = 0x03 then .ok (.setpPers len payload)
  else if arg = 0x04 then fixedLen 1 len (.setpFanout payload)
  else if arg = 0x05 then fixedLen 1 len (.setpDepth payload)
  else if arg = 0x06 then fixedLen 4 len (.setpLeaf payload)
  else if arg = 0x07 then fixedLen 1 len (.setpInner payload)
  else .error .selector

/-- The instruction a command spells, or the clause of R76 that makes its header reserved (R72, R74, R76). -/
def decode (c : Command) : Except Reserved Instr :=
  let arg := argField c.hdr
  let len := lenField c.hdr
  if opField c.hdr = 0x01 then decodeSetp arg len c.payload
  else if opField c.hdr = 0x02 then
    if arg = 0 then fixedLen 0 len (.init c.payload) else .error .argument
  else if opField c.hdr = 0x03 then
    if arg = 0 then .ok (.absorb len c.payload) else .error .argument
  else if opField c.hdr = 0x04 then
    if arg = 0 then fixedLen 0 len (.final false c.payload)
    else if arg = 1 then fixedLen 0 len (.final true c.payload)
    else .error .argument
  else if opField c.hdr = 0x05 then
    if arg = 0 then fixedLen 0 len (.dlen c.payload) else .error .argument
  else .error .opcode

/-- The header of an instruction (R72). -/
def encodeHeader : Instr → Header
  | .setpDlen _ => header 0x01 0x00 1
  | .setpKey len _ => header 0x01 0x01 len
  | .setpSalt len _ => header 0x01 0x02 len
  | .setpPers len _ => header 0x01 0x03 len
  | .setpFanout _ => header 0x01 0x04 1
  | .setpDepth _ => header 0x01 0x05 1
  | .setpLeaf _ => header 0x01 0x06 4
  | .setpInner _ => header 0x01 0x07 1
  | .init _ => header 0x02 0x00 0
  | .absorb len _ => header 0x03 0x00 len
  | .final e _ => header 0x04 (if e then 1 else 0) 0
  | .dlen _ => header 0x05 0x00 0

/-- The command that spells an instruction. -/
def encode (i : Instr) : Command := { hdr := encodeHeader i, payload := i.payload }

/-- A command carried as bytes: the header little-endian, `hdr[7:0]` first, then the payload (R71, D30). -/
def commandBytes (c : Command) : List Byte := bytesLE 4 c.hdr.toNat ++ c.payload

/-- A transaction of bytes read back as a command; fewer than four bytes hold no header. -/
def commandOfBytes : List Byte → Option Command
  | b0 :: b1 :: b2 :: b3 :: payload => some { hdr := BitVec.ofNat 32 (leNat [b0, b1, b2, b3]), payload }
  | _ => none

/-- The decoder on the bytes of a transaction: no instruction where there is no header or a reserved one. -/
def decodeBytes (bs : List Byte) : Option Instr :=
  match commandOfBytes bs with
  | none => none
  | some c =>
    match decode c with
    | .ok i => some i
    | .error _ => none

/-- The bytes of an instruction's transaction. -/
def encodeBytes (i : Instr) : List Byte := commandBytes (encode i)

/-- A row of the command table of R72: a header `hdr` spells the command when `hdr and maskBits = matchBits`. -/
structure OpcodeRow where
  mnemonic  : String
  matchBits : Header
  maskBits  : Header
deriving DecidableEq, Repr

/-- The twelve rows of R72, as spec/opcode_table.json has them. The decoder above does not read them: that it agrees
with them is a statement. -/
def opcodeRows : List OpcodeRow :=
  [ ⟨"SETP.DLEN", 0x01000001, 0xffffffff⟩,
    ⟨"SETP.KEY", 0x01010000, 0xffff0000⟩,
    ⟨"SETP.SALT", 0x01020000, 0xffff0000⟩,
    ⟨"SETP.PERS", 0x01030000, 0xffff0000⟩,
    ⟨"SETP.FANOUT", 0x01040001, 0xffffffff⟩,
    ⟨"SETP.DEPTH", 0x01050001, 0xffffffff⟩,
    ⟨"SETP.LEAF", 0x01060004, 0xffffffff⟩,
    ⟨"SETP.INNER", 0x01070001, 0xffffffff⟩,
    ⟨"INIT", 0x02000000, 0xffffffff⟩,
    ⟨"ABSORB", 0x03000000, 0xffff0000⟩,
    ⟨"FINAL", 0x04000000, 0xfffeffff⟩,
    ⟨"DLEN", 0x05000000, 0xffffffff⟩ ]

/-- `OpcodeRow.spells r hdr`: the header spells the command of the row (R72). -/
abbrev OpcodeRow.spells (r : OpcodeRow) (hdr : Header) : Prop := hdr &&& r.maskBits = r.matchBits

/-- The command whose bits are `w`, numbered as the opcode table numbers them: the header in bits 31 to 0, payload
bytes from bit 32 on. Bits above `nbits` are 0, and the payload has the length the header declares (log 9). -/
def tableCommand (nbits w : Nat) : Command :=
  let v := w % 2 ^ nbits
  { hdr := BitVec.ofNat 32 v, payload := bytesLE (v % 2 ^ 16) (v / 2 ^ 32) }

/-- The instruction the decoder reads from an instruction whose bits are `w`. -/
def decodeTableWord (nbits w : Nat) : Option Instr := decodeBytes (commandBytes (tableCommand nbits w))

end Sys2Proof
end

