-- ==== Sys2Proof/Machine/Memory.lean ====
section
/-! DEFINITION. The block buffer `buf[0..127]`, the only addressed store of the core (20_memory.md R50), as a list of
(offset, byte) pairs in one canonical form. `MemWrite(addr, 1, b)` is the only write and `MemRead(addr, 8)` the only
read of the core (R55). -/

namespace Sys2Proof.Machine

/-- The bytes of the buffer that are not zero, by rising offset. -/
abbrev Memory := List Host.Cell

/-- What an offset that is not listed reads as: the reset content, 0 (10_state.md R39). -/
def Memory.unlisted : Byte := 0

/-- The byte `buf[a]`. -/
def Memory.read : Memory → Nat → Byte
  | [], _ => Memory.unlisted
  | (k, v) :: m, a => if a = k then v else Memory.read m a

/-- `MemWrite(a, 1, b)`: `buf[a] <- b` (20_memory.md R55). The entry is dropped when `b` is what an unlisted offset
reads as. -/
def Memory.write : Memory → Nat → Byte → Memory
  | [], a, b => if b = Memory.unlisted then [] else [(a, b)]
  | (k, v) :: m, a, b =>
    if a < k then (if b = Memory.unlisted then (k, v) :: m else (a, b) :: (k, v) :: m)
    else if a = k then (if b = Memory.unlisted then m else (a, b) :: m)
    else (k, v) :: Memory.write m a b

/-- Consecutive byte writes from offset `a` on, in order. -/
def Memory.writeBytes : Memory → Nat → List Byte → Memory
  | m, _, [] => m
  | m, a, b :: bs => Memory.writeBytes (m.write a b) (a + 1) bs

/-- `for j in 0..127: buf[j] <- 0`: every byte of the buffer becomes zero (40_config_encoder.md R101). -/
def Memory.zeroed : Memory := []

/-- `for j in a..127: buf[j] <- 0`: the zero padding of `FINAL` (42_streaming_digest.md R135). -/
def Memory.zeroFrom (m : Memory) (a : Nat) : Memory := m.filter fun c => decide (c.1 < a)

/-- `MemRead(a, 8)`: eight bytes as a little-endian word (20_memory.md R51, R55). -/
def Memory.readWord (m : Memory) (a : Nat) : Word :=
  le64 [m.read a, m.read (a + 1), m.read (a + 2), m.read (a + 3),
    m.read (a + 4), m.read (a + 5), m.read (a + 6), m.read (a + 7)]

/-- The canonical form above a lower bound: offsets strictly rising, below 128, no entry an unlisted offset reads as. -/
def Memory.wfFrom : Nat → Memory → Bool
  | _, [] => true
  | lo, (k, v) :: m =>
    decide (lo ≤ k) && decide (k < Config.block) && decide (v ≠ Memory.unlisted) && Memory.wfFrom (k + 1) m

/-- The canonical form of the buffer: equal buffers are equal lists. -/
def Memory.wf (m : Memory) : Bool := Memory.wfFrom 0 m

end Sys2Proof.Machine
end

