-- ==== Sys2Proof/Machine/State.lean ====
section
/-! DEFINITION. The state of one core (10_state.md R20), its two ports (00_scope.md R7), the reasons a step can stop, and
the state after reset (10_state.md R39). -/

namespace Sys2Proof.Machine

/-- The lifecycle register `lc` (10_state.md R25). The value 0b11 is never held and is left out of the type (log 6). -/
inductive Lifecycle where
  /-- 0b00: no parameter block has been applied -/
  | uninitialized
  /-- 0b01: state seeded, bytes may be absorbed -/
  | initialized
  /-- 0b10: finalized -/
  | closed
deriving DecidableEq, Repr

/-- The status of a response (30_encoding.md R75). All other status values are never produced. -/
inductive Status where
  | ok
  | cfgDlen
  | cfgKeylen
  | cfgInner
  | cfgSalt
  | cfgPers
  | useClosed
  | useLength
  | useReserved
deriving DecidableEq, Repr

/-- A response: a status and a sequence of data bytes (30_encoding.md R75). -/
structure Response where
  status : Status
  data   : List Byte
deriving DecidableEq, Repr

/-- The state of one core. The fields from `lc` to `p_pers` are the tuple of 10_state.md R20 under its names; `cmds` and
`resp` are the command port and the response port of 00_scope.md R7. -/
structure State where
  /-- lifecycle register (R25) -/
  lc        : Lifecycle
  /-- chaining state `h[0..7]` (R21) -/
  h         : Vector Word 8
  /-- low word of the byte counter (R22) -/
  t0        : Word
  /-- high word of the byte counter (R22) -/
  t1        : Word
  /-- final-block flag word (R23) -/
  f0        : Word
  /-- end-of-layer flag word (R23) -/
  f1        : Word
  /-- block buffer `buf[0..127]` (R24) -/
  buf       : Memory
  /-- number of pending bytes, 0 to 128 in 8 bits (R24) -/
  buf_len   : BitVec 8
  /-- digest length, 0 = not set (R26) -/
  p_dlen    : Byte
  /-- key length, 7 bits (R27) -/
  p_klen    : BitVec 7
  /-- key bytes (R27) -/
  p_key     : Vector Byte 64
  /-- fan-out (R28) -/
  p_fanout  : Byte
  /-- maximal depth (R29) -/
  p_depth   : Byte
  /-- leaf size (R30) -/
  p_leaf    : BitVec 32
  /-- intermediate hash length (R31) -/
  p_inner   : Byte
  /-- a salt is present (R32) -/
  p_salt_en : Bool
  /-- salt (R32) -/
  p_salt    : Vector Byte 16
  /-- a personalization is present (R33) -/
  p_pers_en : Bool
  /-- personalization (R33) -/
  p_pers    : Vector Byte 16
  /-- command port: commands issued and not yet taken, oldest first (00_scope.md R7, log 1) -/
  cmds      : List Command
  /-- response port: the last response, none before the first (00_scope.md R7, log 2) -/
  resp      : Option Response
deriving DecidableEq, Repr

/-- Why a step stops with a fault. -/
inductive Fault where
  /-- A byte write at a buffer offset that does not exist (20_memory.md R50: offsets 0 to 127). Raised by `ABSORB` when
  `buf_len` is 128 or more between commands, which no reachable state has (10_state.md R38). Safe (log 5). -/
  | bufferOffset (offset : Nat)
deriving DecidableEq, Repr

/-- Why a step has no meaning. -/
inductive Refusal where
  /-- No meaning has been written for the instruction. Raised by no arm: every command has its meaning. Safe. -/
  | notModelled (mnemonic : String)
deriving DecidableEq, Repr

/-- The outcome of a command or of a step. -/
abbrev Result := Host.Outcome State Fault Refusal

/-- The state after reset: the table of 10_state.md R39, no command issued and no response given (70_reset_and_hazards.md
R180, log 1, log 2). -/
def State.reset : State :=
  { lc := .uninitialized
    h := Vector.replicate 8 0
    t0 := 0
    t1 := 0
    f0 := 0
    f1 := 0
    buf := Memory.zeroed
    buf_len := 0
    p_dlen := 0
    p_klen := 0
    p_key := Vector.replicate 64 0
    p_fanout := 1
    p_depth := 1
    p_leaf := 0
    p_inner := 0
    p_salt_en := false
    p_salt := Vector.replicate 16 0
    p_pers_en := false
    p_pers := Vector.replicate 16 0
    cmds := []
    resp := none }

end Sys2Proof.Machine
end

