-- ==== Sys2Proof/Machine/Operands.lean ====
section
/-! DEFINITION. The operands of the `SETP` commands: the value a payload spells and the check of it
(30_encoding.md R73, 40_config_encoder.md R91, R93 to R100). -/

namespace Sys2Proof.Machine

/-- The one payload byte of a scalar parameter (R73). -/
def scalarOperand (payload : List Byte) : Byte := payload.headD 0

/-- The leaf size: four payload bytes, little-endian (R73, R99). -/
def leafOperand (payload : List Byte) : BitVec 32 := BitVec.ofNat 32 (leNat payload)

/-- A byte string as a register of `n` bytes, zero at the positions it does not reach (R94, R95). -/
def bytesOperand (n : Nat) (payload : List Byte) : Vector Byte n := Vector.ofFn fun j => payload.getD j.val 0

/-- "digest length outside [1,64]" (R91, 60_exceptions.md R151). -/
def dlenError (n : Byte) : Option Status :=
  if Config.dlenMin ≤ n.toNat ∧ n.toNat ≤ Config.dlenMax then none else some .cfgDlen

/-- "key length > 64" (R91, 60_exceptions.md R152). -/
def klenError (len : Nat) : Option Status := if len ≤ Config.keyMax then none else some .cfgKeylen

/-- "intermediate hash length > 64" (R91, 60_exceptions.md R153). -/
def innerError (n : Byte) : Option Status := if n.toNat ≤ Config.innerMax then none else some .cfgInner

/-- "salt present but not 16 bytes": the length is 0 (absent) or 16 (R91, 60_exceptions.md R154). -/
def saltError (len : Nat) : Option Status := if len = 0 ∨ len = Config.saltLen then none else some .cfgSalt

/-- "personalization present but not 16 bytes" (R91, 60_exceptions.md R155). -/
def persError (len : Nat) : Option Status := if len = 0 ∨ len = Config.saltLen then none else some .cfgPers

end Sys2Proof.Machine
end

