-- ==== Sys2Proof/Machine/Ops.lean ====
section
/-! DEFINITION. The shared operations of every command: answering, raising an error, the wipe, and the checks all
commands begin with. -/

namespace Sys2Proof.Machine

/-- `respond(OK, data)`: the command ends with status `OK` and the data bytes (00_scope.md section 5). -/
def State.respond (s : State) (data : List Byte) : State := { s with resp := some ⟨.ok, data⟩ }

/-- `raise E(code)`, the error entry (60_exceptions.md R162): no state element changes, the response carries the status
and no data. There is no saved context, no cause register, no handler and no return command (R162, R163): the next
command is taken as if this one had not been issued. -/
def State.raise (s : State) (code : Status) : State := { s with resp := some ⟨code, []⟩ }

/-- `WIPE` (40_config_encoder.md R101, 10_state.md R40): the hashing state becomes zero and `lc` becomes
`UNINITIALIZED`; every parameter register keeps its value. -/
def State.wipe (s : State) : State :=
  { s with
    lc := .uninitialized
    h := Vector.replicate 8 0
    t0 := 0
    t1 := 0
    f0 := 0
    f1 := 0
    buf := Memory.zeroed
    buf_len := 0 }

/-- The payload-length check every command begins with (30_encoding.md R70, 60_exceptions.md R157, R161 item 2). -/
def withLength (declared : Nat) (payload : List Byte) (s : State) (body : Result) : Result :=
  if payload.length = declared then body else .next (s.raise .useLength)

/-- The common behaviour of the `SETP` commands (40_config_encoder.md R92): the length check, then the check of the
value (`invalid` is the error it raises, if any), then the register write, the wipe and the answer `OK`. -/
def setParam (declared : Nat) (payload : List Byte) (invalid : Option Status) (written s : State) : Result :=
  withLength declared payload s <|
    match invalid with
    | some code => .next (s.raise code)
    | none => .next (written.wipe.respond [])

/-- The encoding of the lifecycle register (10_state.md R25). -/
def lifecycleBits : Lifecycle → BitVec 2
  | .uninitialized => 0b00
  | .initialized => 0b01
  | .closed => 0b10

/-- The status codes (30_encoding.md R75). -/
def statusCode : Status → Byte
  | .ok => 0x00
  | .cfgDlen => 0x10
  | .cfgKeylen => 0x11
  | .cfgInner => 0x12
  | .cfgSalt => 0x13
  | .cfgPers => 0x14
  | .useClosed => 0x20
  | .useLength => 0x21
  | .useReserved => 0x22

/-- A response as the host reads it: the status byte, then the data bytes (30_encoding.md R75). -/
def responseBytes (r : Response) : List Byte := statusCode r.status :: r.data

end Sys2Proof.Machine
end

