-- ==== Sys2Proof/Machine/ConfigEncoder.lean ====
section
/-! DEFINITION. The ConfigEncoder: the parameter block, the validation predicate and the eight `SETP` commands
(40_config_encoder.md). -/

namespace Sys2Proof.Machine

/-- `P[0]`: leaf size, depth, fan-out, key length, digest length from bit 63 down (R90). -/
def pblock0 (s : State) : Word := s.p_leaf ++ s.p_depth ++ s.p_fanout ++ s.p_klen.setWidth 8 ++ s.p_dlen

/-- `P[2]`: the intermediate hash length in bits 15 to 8 (R90). -/
def pblock2 (s : State) : Word := (0 : BitVec 48) ++ s.p_inner ++ (0 : BitVec 8)

/-- `PBLOCK`: the eight words of the parameter block, a function of the parameter registers alone (R90). "All other bits
are zero." -/
def pblock (s : State) : Vector Word 8 :=
  #v[pblock0 s, 0, pblock2 s, 0,
    le64 (s.p_salt.toList.take 8), le64 (s.p_salt.toList.drop 8),
    le64 (s.p_pers.toList.take 8), le64 (s.p_pers.toList.drop 8)]

/-- `VALID`: the error of the first failing condition, in the order of R91; none when the parameters are valid. The
last two conditions, on a salt and a personalization that are present, cannot fail here: both registers have 16 bytes
by their type (log 12). -/
def firstInvalid (s : State) : Option Status :=
  dlenError s.p_dlen <|> klenError s.p_klen.toNat <|> innerError s.p_inner

/-- `SETP.DLEN n` (R93). -/
def execSetpDlen (payload : List Byte) (s : State) : Result :=
  let n := scalarOperand payload
  setParam 1 payload (dlenError n) { s with p_dlen := n } s

/-- `SETP.KEY k` (R94). -/
def execSetpKey (len : BitVec 16) (payload : List Byte) (s : State) : Result :=
  setParam len.toNat payload (klenError len.toNat)
    { s with p_klen := len.setWidth 7, p_key := bytesOperand 64 payload } s

/-- `SETP.SALT s` (R95); length 0 makes the salt absent. -/
def execSetpSalt (len : BitVec 16) (payload : List Byte) (s : State) : Result :=
  setParam len.toNat payload (saltError len.toNat)
    { s with p_salt_en := decide (len ≠ 0), p_salt := bytesOperand 16 payload } s

/-- `SETP.PERS p` (R96); length 0 makes the personalization absent. -/
def execSetpPers (len : BitVec 16) (payload : List Byte) (s : State) : Result :=
  setParam len.toNat payload (persError len.toNat)
    { s with p_pers_en := decide (len ≠ 0), p_pers := bytesOperand 16 payload } s

/-- `SETP.FANOUT n`: every value is accepted (R97). -/
def execSetpFanout (payload : List Byte) (s : State) : Result :=
  setParam 1 payload none { s with p_fanout := scalarOperand payload } s

/-- `SETP.DEPTH n`: every value is accepted (R98). -/
def execSetpDepth (payload : List Byte) (s : State) : Result :=
  setParam 1 payload none { s with p_depth := scalarOperand payload } s

/-- `SETP.LEAF n`: every value is accepted (R99). -/
def execSetpLeaf (payload : List Byte) (s : State) : Result :=
  setParam 4 payload none { s with p_leaf := leafOperand payload } s

/-- `SETP.INNER n` (R100). -/
def execSetpInner (payload : List Byte) (s : State) : Result :=
  let n := scalarOperand payload
  setParam 1 payload (innerError n) { s with p_inner := n } s

end Sys2Proof.Machine
end

