-- ==== Sys2Proof/Machine/Compression.lean ====
section
/-! DEFINITION. The CompressionCore: a pure function of the chaining state, the block, the counter and the flags
(41_compression_core.md). The message words `m` and the working words `v` are local values, not state (10_state.md R34,
41_compression_core.md R120). -/

namespace Sys2Proof.Machine

/-- `IV[0..7]` (00_scope.md R5; the spec supplies the values from general knowledge, log 7). -/
def iv : Vector Word 8 :=
  #v[0x6a09e667f3bcc908, 0xbb67ae8584caa73b, 0x3c6ef372fe94f82b, 0xa54ff53a5f1d36f1,
    0x510e527fade682d1, 0x9b05688c2b3e6c1f, 0x1f83d9abfb41bd6b, 0x5be0cd19137e2179]

/-- `SIGMA[0..11][0..15]` (00_scope.md R6; rows 0 to 9 supplied from general knowledge, log 7; rows 10 and 11 repeat
rows 0 and 1). -/
def sigma : Vector (Vector (Fin 16) 16) 12 :=
  #v[#v[0, 1, 2, 3, 4, 5, 6, 7, 8, 9, 10, 11, 12, 13, 14, 15],
    #v[14, 10, 4, 8, 9, 15, 13, 6, 1, 12, 0, 2, 11, 7, 5, 3],
    #v[11, 8, 12, 0, 5, 2, 15, 13, 10, 14, 3, 6, 7, 1, 9, 4],
    #v[7, 9, 3, 1, 13, 12, 11, 14, 2, 6, 5, 10, 4, 0, 15, 8],
    #v[9, 0, 5, 7, 2, 4, 10, 15, 14, 1, 11, 12, 6, 8, 3, 13],
    #v[2, 12, 6, 10, 0, 11, 8, 3, 4, 13, 7, 5, 15, 14, 1, 9],
    #v[12, 5, 1, 15, 14, 13, 4, 10, 0, 7, 6, 3, 9, 2, 8, 11],
    #v[13, 11, 7, 14, 12, 1, 3, 9, 5, 0, 15, 4, 8, 6, 2, 10],
    #v[6, 15, 14, 9, 11, 3, 0, 8, 12, 2, 13, 7, 1, 4, 10, 5],
    #v[10, 2, 8, 4, 7, 6, 1, 5, 15, 11, 9, 14, 3, 12, 13, 0],
    #v[0, 1, 2, 3, 4, 5, 6, 7, 8, 9, 10, 11, 12, 13, 14, 15],
    #v[14, 10, 4, 8, 9, 15, 13, 6, 1, 12, 0, 2, 11, 7, 5, 3]]

/-- `add64(a, b)`: addition modulo `2^64`, the carry discarded (00_scope.md section 5, R117). -/
def add64 (a b : Word) : Word := a + b

/-- `ror64(w, n)`: `(w >> n) or (w << (64 - n))` (00_scope.md section 5). -/
def ror64 (w : Word) (n : Nat) : Word := (w >>> n) ||| (w <<< (64 - n))

/-- The four working words one evaluation of `G` reads and writes. -/
structure Quad where
  a : Word
  b : Word
  c : Word
  d : Word
deriving DecidableEq, Repr

/-- `G(a, b, c, d, x, y)`: the eight assignments in order, each using what the earlier ones produced (R113). -/
def mixG (q : Quad) (x y : Word) : Quad :=
  let a := add64 (add64 q.a q.b) x
  let d := ror64 (q.d ^^^ a) 32
  let c := add64 q.c d
  let b := ror64 (q.b ^^^ c) 24
  let a := add64 (add64 a b) y
  let d := ror64 (d ^^^ a) 16
  let c := add64 c d
  let b := ror64 (b ^^^ c) 63
  { a, b, c, d }

/-- The indices `(ia, ib, ic, id)` of a position (R114). -/
structure Position where
  ia : Fin 16
  ib : Fin 16
  ic : Fin 16
  id : Fin 16
deriving DecidableEq, Repr

/-- The eight positions of a round: four column groups, then four diagonal groups (R114). -/
def positions : Vector Position 8 :=
  #v[⟨0, 4, 8, 12⟩, ⟨1, 5, 9, 13⟩, ⟨2, 6, 10, 14⟩, ⟨3, 7, 11, 15⟩,
    ⟨0, 5, 10, 15⟩, ⟨1, 6, 11, 12⟩, ⟨2, 7, 8, 13⟩, ⟨3, 4, 9, 14⟩]

/-- The working words `v[0..15]`. -/
abbrev Work := Vector Word 16

/-- The message words `m[0..15]`. -/
abbrev Message := Vector Word 16

/-- `G` on the working words of a position; the four results are written back (R114). -/
def applyG (v : Work) (p : Position) (x y : Word) : Work :=
  let q := mixG ⟨v[p.ia], v[p.ib], v[p.ic], v[p.id]⟩ x y
  (((v.set p.ia q.a).set p.ib q.b).set p.ic q.c).set p.id q.d

/-- The evaluation at position `i` of round `r`: it takes `m[SIGMA[r][2i]]` and `m[SIGMA[r][2i+1]]` (R114; the pairing
is supplied from general knowledge, log 7). -/
def stepG (m : Message) (r : Fin 12) (v : Work) (i : Fin 8) : Work :=
  applyG v positions[i] m[sigma[r][2 * i.val]] m[sigma[r][2 * i.val + 1]]

/-- `ROUND(v, m, r)`: the eight evaluations in the order of the positions (R114). -/
def mixRound (m : Message) (v : Work) (r : Fin 12) : Work := (List.finRange 8).foldl (stepG m r) v

/-- The round loop: rounds 0 to 11 in that order (R115). -/
def mixRounds (m : Message) (v : Work) : Work := (List.finRange 12).foldl (mixRound m) v

/-- `DECODE(block)`: `m[i] = MemRead(8*i, 8)` (R111). -/
def messageWords (block : Memory) : Message := Vector.ofFn fun i => block.readWord (8 * i.val)

/-- `VINIT(h, t0, t1, f0, f1)`: the sixteen working words (R112). -/
def initWork (h : Vector Word 8) (t0 t1 f0 f1 : Word) : Work :=
  #v[h[0], h[1], h[2], h[3], h[4], h[5], h[6], h[7],
    iv[0], iv[1], iv[2], iv[3], iv[4] ^^^ t0, iv[5] ^^^ t1, iv[6] ^^^ f0, iv[7] ^^^ f1]

/-- The feed-forward: `h'[i] = h[i] xor v[i] xor v[i+8]` (R116). -/
def feedForward (h : Vector Word 8) (v : Work) : Vector Word 8 :=
  Vector.ofFn fun i => h[i] ^^^ v[i.val] ^^^ v[i.val + 8]

/-- `COMPRESS(h, block, t0, t1, f0, f1)` (R110). -/
def compress (h : Vector Word 8) (block : Memory) (t0 t1 f0 f1 : Word) : Vector Word 8 :=
  feedForward h (mixRounds (messageWords block) (initWork h t0 t1 f0 f1))

end Sys2Proof.Machine
end

