-- ==== Sys2Proof/Machine/Flags.lean ====
section
/-! DEFINITION. The flag words and the byte counter. The core has no condition codes (10_state.md R36): its only flags
are the finalization words `f0` and `f1` (R23), and the only carry is the one inside the counter increment. -/

namespace Sys2Proof.Machine

/-- `ones64`, the all-ones word (00_scope.md section 5). -/
def ones64 : Word := 0xffffffffffffffff

/-- The end-of-layer flag word: all ones if requested, else zero (42_streaming_digest.md R135). -/
def layerFlag (e : Bool) : Word := if e then ones64 else 0

/-- `f0 <- ones64; f1 <- ones64 if e = 1 else 0` (42_streaming_digest.md R135). -/
def State.setFinalFlags (s : State) (e : Bool) : State := { s with f0 := ones64, f1 := layerFlag e }

/-- `CTR_ADD(n)`: the 128-bit value `t1 * 2^64 + t0` is increased by `n` modulo `2^128`; the low word wrapped exactly
when it is below the increment (42_streaming_digest.md R133). -/
def State.ctrAdd (s : State) (n : Nat) : State :=
  let low := s.t0 + BitVec.ofNat 64 n
  let carry : Word := if low.toNat < n then 1 else 0
  { s with t0 := low, t1 := s.t1 + carry }

end Sys2Proof.Machine
end

