-- ==== Sys2Proof/Machine/Digest.lean ====
section
/-! DEFINITION. The StreamingDigest: initialization, absorbing, finalizing, the digest and the digest-length accessor
(42_streaming_digest.md). -/

namespace Sys2Proof.Machine

/-- `KEY_FILL`: the fill of the buffer after the key copy is the key length; the key is not padded to a block (R131,
92_eei_decisions.md D12, log 8). -/
def keyFill (klen : BitVec 7) : BitVec 8 := klen.setWidth 8

/-- The key bytes `p_key[0..p_klen-1]`. -/
def keyBytes (s : State) : List Byte := s.p_key.toList.take s.p_klen.toNat

/-- The seed `IV xor P` (R131). -/
def seed (s : State) : Vector Word 8 := Vector.ofFn fun i => iv[i] ^^^ (pblock s)[i]

/-- `DO_INIT` (R131): seed the state, zero counter and flags, zero the buffer and copy the key into it. -/
def State.doInit (s : State) : State :=
  { s with
    lc := .initialized
    h := seed s
    t0 := 0
    t1 := 0
    f0 := 0
    f1 := 0
    buf := Memory.zeroed.writeBytes 0 (keyBytes s)
    buf_len := keyFill s.p_klen }

/-- What `ABSORB` and `FINAL` do before their own work: a closed core is an error; an uninitialized one is checked and
initialized within the same step (R132, R134, R135, 60_exceptions.md R161 items 3 and 4). -/
def openHash (s : State) : Except Status State :=
  match s.lc with
  | .closed => .error .useClosed
  | .initialized => .ok s
  | .uninitialized =>
    match firstInvalid s with
    | some code => .error code
    | none => .ok s.doInit

/-- A full block: the counter is advanced by 128, the block is compressed with zero flags, the buffer is cleared
(R134). -/
def State.flushBlock (s : State) : State :=
  let c := s.ctrAdd Config.block
  { c with h := compress c.h c.buf c.t0 c.t1 0 0, buf := Memory.zeroed, buf_len := 0 }

/-- The offset `ABSORB` writes its next byte to (R134: `MemWrite(buf_len, 1, d[k])`). -/
def absorbOffset (s : State) : Nat := s.buf_len.toNat

/-- `MemWrite(buf_len, 1, b); buf_len <- buf_len + 1` (R134). -/
def State.pushByte (s : State) (b : Byte) : State :=
  { s with buf := s.buf.write (absorbOffset s) b, buf_len := s.buf_len + 1 }

/-- One byte of `ABSORB`: it is written at `buf_len`, and a block that becomes full is compressed at once (R134). An
offset that does not exist faults (log 5). -/
def absorbByte (b : Byte) (s : State) : Except Fault State :=
  if absorbOffset s < Config.block then
    let w := s.pushByte b
    .ok (if w.buf_len.toNat = Config.block then w.flushBlock else w)
  else .error (.bufferOffset (absorbOffset s))

/-- The bytes of a payload, in order (R134). -/
def absorbBytes : List Byte → State → Except Fault State
  | [], s => .ok s
  | b :: bs, s =>
    match absorbByte b s with
    | .ok t => absorbBytes bs t
    | .error f => .error f

/-- `DIGEST(h, n)`: the first `n` bytes of the state words written little-endian (R136). -/
def digestBytes (h : Vector Word 8) (n : Nat) : List Byte := (h.toList.flatMap bytes64).take n

/-- The work of `FINAL` on an initialized core (R135): count the pending bytes, set the flags, pad with zeros, compress
once, close. `buf_len` keeps its value. -/
def State.finalize (s : State) (e : Bool) : State :=
  let c := (s.ctrAdd s.buf_len.toNat).setFinalFlags e
  let padded := c.buf.zeroFrom c.buf_len.toNat
  { c with buf := padded, h := compress c.h padded c.t0 c.t1 c.f0 c.f1, lc := .closed }

/-- `INIT` (R131): it runs in every lifecycle state. -/
def execInit (payload : List Byte) (s : State) : Result :=
  withLength 0 payload s <|
    match firstInvalid s with
    | some code => .next (s.raise code)
    | none => .next (s.doInit.respond [])

/-- `ABSORB d` (R134). All checks come before any write. -/
def execAbsorb (len : BitVec 16) (payload : List Byte) (s : State) : Result :=
  withLength len.toNat payload s <|
    match openHash s with
    | .error code => .next (s.raise code)
    | .ok o =>
      match absorbBytes payload o with
      | .ok t => .next (t.respond [])
      | .error f => .fault f

/-- `FINAL` (R135): the response carries the digest of `p_dlen` bytes. -/
def execFinal (e : Bool) (payload : List Byte) (s : State) : Result :=
  withLength 0 payload s <|
    match openHash s with
    | .error code => .next (s.raise code)
    | .ok o =>
      let t := o.finalize e
      .next (t.respond (digestBytes t.h t.p_dlen.toNat))

/-- `DLEN` (R137): the one byte `p_dlen`, in every lifecycle state; nothing is written. -/
def execDlen (payload : List Byte) (s : State) : Result :=
  withLength 0 payload s (.next (s.respond [s.p_dlen]))

end Sys2Proof.Machine
end

