-- ==== Sys2Proof/Machine/Dispatch.lean ====
section
/-! DEFINITION. One arm per instruction: the twelve commands of 30_encoding.md R72. -/

namespace Sys2Proof.Machine

def exec (i : Instr) (s : State) : Host.Outcome State Fault Refusal :=
  match i with
  | .setpDlen payload => Sys2Proof.Machine.execSetpDlen payload s
  | .setpKey len payload => Sys2Proof.Machine.execSetpKey len payload s
  | .setpSalt len payload => Sys2Proof.Machine.execSetpSalt len payload s
  | .setpPers len payload => Sys2Proof.Machine.execSetpPers len payload s
  | .setpFanout payload => Sys2Proof.Machine.execSetpFanout payload s
  | .setpDepth payload => Sys2Proof.Machine.execSetpDepth payload s
  | .setpLeaf payload => Sys2Proof.Machine.execSetpLeaf payload s
  | .setpInner payload => Sys2Proof.Machine.execSetpInner payload s
  | .init payload => Sys2Proof.Machine.execInit payload s
  | .absorb len payload => Sys2Proof.Machine.execAbsorb len payload s
  | .final e payload => Sys2Proof.Machine.execFinal e payload s
  | .dlen payload => Sys2Proof.Machine.execDlen payload s

end Sys2Proof.Machine
end

