-- ==== Sys2Proof/Machine/Fetch.lean ====
section
/-! DEFINITION. Taking a command from the command port, and the answer to a reserved header. -/

namespace Sys2Proof.Machine

/-- The command at the head of the command port, and the port without it (00_scope.md R7: commands are taken one at a
time, in the order the host issues them). -/
def State.fetch (s : State) : Option (Command × State) :=
  match s.cmds with
  | [] => none
  | c :: rest => some (c, { s with cmds := rest })

/-- A reserved header is answered `USE_RESERVED` with no other effect, whatever the payload and the state
(30_encoding.md R76, 60_exceptions.md R158, R161 item 1). -/
def answerReserved (s : State) : State := s.raise .useReserved

/-- The command the host issues next: it goes to the head of the command port. -/
def State.issueNext (s : State) (c : Command) : State := { s with cmds := c :: s.cmds }

end Sys2Proof.Machine
end

