-- ==== Sys2Proof/Machine/Step.lean ====
section
/-! DEFINITION. One step of the core: one command taken, executed and answered (00_scope.md R7). -/

namespace Sys2Proof.Machine

/-- One step. With no command issued the core is idle and keeps all its state (60_exceptions.md R170, log 3); a reserved
header is answered (30_encoding.md R76); any other command is executed. -/
def step (s : State) : Host.Outcome State Fault Refusal :=
  match s.fetch with
  | none => .next s
  | some (c, rest) =>
    match decode c with
    | .error _ => .next (answerReserved rest)
    | .ok i => exec i rest

/-- The state in which the host has issued, as the next command, the one whose bits are `w` (log 1, log 9). -/
def State.withFetchWord (s : State) (nbits w : Nat) : State := s.issueNext (tableCommand nbits w)

end Sys2Proof.Machine
end

