-- ==== Sys2Proof/Machine/Text.lean ====
section
/-! DEFINITION. The textual form of a command and of a response (30_encoding.md R78): an assembler from a line of text
to an instruction, and the text of a response. No step uses it. -/

namespace Sys2Proof.Machine

/-- The value of a hexadecimal digit. -/
def hexValue (c : Char) : Option Nat :=
  if '0'.toNat ≤ c.toNat ∧ c.toNat ≤ '9'.toNat then some (c.toNat - '0'.toNat)
  else if 'a'.toNat ≤ c.toNat ∧ c.toNat ≤ 'f'.toNat then some (c.toNat - 'a'.toNat + 10)
  else if 'A'.toNat ≤ c.toNat ∧ c.toNat ≤ 'F'.toNat then some (c.toNat - 'A'.toNat + 10)
  else none

/-- The bytes a hexadecimal string spells: two digits per byte, the first byte first (R78). -/
def readHex : List Char → Option (List Byte)
  | [] => some []
  | [_] => none
  | a :: b :: rest =>
    match hexValue a, hexValue b, readHex rest with
    | some x, some y, some bs => some (BitVec.ofNat 8 (16 * x + y) :: bs)
    | _, _, _ => none

/-- A decimal number, read on from the value of the digits before it. -/
def readDigits (value : Nat) : List Char → Option Nat
  | [] => some value
  | c :: cs =>
    if '0'.toNat ≤ c.toNat ∧ c.toNat ≤ '9'.toNat then readDigits (10 * value + (c.toNat - '0'.toNat)) cs else none

/-- The number `n` of a line, when it fits in `len` bytes, as those bytes little-endian (R73, R78). -/
def readNumber (len : Nat) (cs : List Char) : Option (List Byte) :=
  if cs = [] then none
  else
    match readDigits 0 cs with
    | none => none
    | some n => if n < 256 ^ len then some (bytesLE len n) else none

/-- The characters up to the closing quotation mark, which ends the line, as ASCII bytes (R78). -/
def readQuoted : List Char → Option (List Byte)
  | [] => none
  | ['"'] => some []
  | c :: cs =>
    if c.toNat < 128 then
      match readQuoted cs with
      | none => none
      | some bs => some (BitVec.ofNat 8 c.toNat :: bs)
    else none

/-- A payload operand: `-` is the empty payload, any other string is hexadecimal (R78). -/
def readPayload (cs : List Char) : Option (List Byte) :=
  if cs = [] then none else if cs = ['-'] then some [] else readHex cs

/-- The operand of `ABSORB`: a payload operand, or ASCII characters in quotation marks (R78). -/
def readAbsorbed : List Char → Option (List Byte)
  | '"' :: cs => readQuoted cs
  | cs => readPayload cs

/-- An instruction whose declared length is the length of its payload, `LEN_MAX` at most. -/
def counted (make : BitVec 16 → List Byte → Instr) (payload : Option (List Byte)) : Option Instr :=
  match payload with
  | none => none
  | some p => if p.length ≤ Config.lenMax then some (make (BitVec.ofNat 16 p.length) p) else none

/-- The first word of a line, and what follows the space after it, if there is one. -/
def splitWord : List Char → List Char × Option (List Char)
  | [] => ([], none)
  | ' ' :: rest => ([], some rest)
  | c :: cs =>
    let (word, rest) := splitWord cs
    (c :: word, rest)

/-- A command with one operand. -/
def assembleOperand (mnemonic : String) (operand : List Char) : Option Instr :=
  match mnemonic with
  | "SETP.DLEN" => (readNumber 1 operand).map .setpDlen
  | "SETP.KEY" => counted .setpKey (readPayload operand)
  | "SETP.SALT" => counted .setpSalt (readPayload operand)
  | "SETP.PERS" => counted .setpPers (readPayload operand)
  | "SETP.FANOUT" => (readNumber 1 operand).map .setpFanout
  | "SETP.DEPTH" => (readNumber 1 operand).map .setpDepth
  | "SETP.LEAF" => (readNumber 4 operand).map .setpLeaf
  | "SETP.INNER" => (readNumber 1 operand).map .setpInner
  | "ABSORB" => counted .absorb (readAbsorbed operand)
  | "FINAL" =>
    if operand = ['e', 'o', 'l', '=', '0'] then some (.final false [])
    else if operand = ['e', 'o', 'l', '=', '1'] then some (.final true [])
    else none
  | _ => none

/-- A command without an operand. -/
def assembleBare (mnemonic : String) : Option Instr :=
  match mnemonic with
  | "INIT" => some (.init [])
  | "FINAL" => some (.final false [])
  | "DLEN" => some (.dlen [])
  | _ => none

/-- The instruction a line of text spells; there are no pseudo-commands (R78). -/
def assemble (line : List Char) : Option Instr :=
  match splitWord line with
  | (word, some operand) => assembleOperand (String.ofList word) operand
  | (word, none) => assembleBare (String.ofList word)

/-- A hexadecimal digit. -/
def hexDigit (n : Nat) : Char :=
  ['0', '1', '2', '3', '4', '5', '6', '7', '8', '9', 'a', 'b', 'c', 'd', 'e', 'f'].getD n '0'

/-- Bytes as a hexadecimal string, two digits per byte. -/
def hexText : List Byte → List Char
  | [] => []
  | b :: bs => hexDigit (b.toNat / 16) :: hexDigit (b.toNat % 16) :: hexText bs

/-- The name of a status (30_encoding.md R75). -/
def statusName : Status → String
  | .ok => "OK"
  | .cfgDlen => "CFG_DLEN"
  | .cfgKeylen => "CFG_KEYLEN"
  | .cfgInner => "CFG_INNER"
  | .cfgSalt => "CFG_SALT"
  | .cfgPers => "CFG_PERS"
  | .useClosed => "USE_CLOSED"
  | .useLength => "USE_LENGTH"
  | .useReserved => "USE_RESERVED"

/-- A response as it is written: `-> OK`, `-> OK <hex>` or `-> <status name>` (R78). -/
def responseText (r : Response) : String :=
  "-> " ++ statusName r.status ++ (if r.data = [] then "" else " " ++ String.ofList (hexText r.data))

end Sys2Proof.Machine
end

