-- ==== Sys2Proof/Machine/Platform.lean ====
section
/-! DEFINITION. A platform of several cores (60_exceptions.md R168): a product of independent copies, each with its own
state and its own ports. -/

namespace Sys2Proof.Machine

/-- The cores of a platform. Their number is the platform's `N_INSTANCES` (92_eei_decisions.md D25). -/
structure Platform where
  cores : List State
deriving DecidableEq, Repr

/-- Core `k` takes one step; the others keep their state. An index that names no core steps nothing. -/
def platformStep (k : Nat) (p : Platform) : Host.Outcome Platform Fault Refusal :=
  match p.cores[k]? with
  | none => .next p
  | some s =>
    match step s with
    | .next t => .next { p with cores := p.cores.set k t }
    | .fault f => .fault f
    | .refused r => .refused r

end Sys2Proof.Machine
end

