-- ==== Sys2Proof/Machine/Reference.lean ====
section
/-! DEFINITION. The hash of a byte string in closed form (42_streaming_digest.md R138): the block-by-block reading that
claims compare the commands with. No command uses it. -/

namespace Sys2Proof.Machine

/-- The 128-bit counter `t1 * 2^64 + t0` (10_state.md R22). -/
def State.count (s : State) : Nat := s.t1.toNat * 2 ^ 64 + s.t0.toNat

/-- The low word of a count (R22). -/
def countLow (c : Nat) : Word := BitVec.ofNat 64 c

/-- The high word of a count (R22); a count of `2^128` or more wraps (42_streaming_digest.md R133). -/
def countHigh (c : Nat) : Word := BitVec.ofNat 64 (c / 2 ^ 64)

/-- The pending bytes `buf[0..buf_len-1]`, in the order absorbed (10_state.md R24). -/
def pendingBytes (s : State) : List Byte := (List.range s.buf_len.toNat).map s.buf.read

/-- Block `k` of a byte string: its bytes `128k` to `128k+127`, zero where the string has none. -/
def blockAt (data : List Byte) (k : Nat) : Memory :=
  Memory.zeroed.writeBytes 0 ((data.drop (Config.block * k)).take Config.block)

/-- The chaining state after the first `n` full blocks of `data`, from the chaining state `h` and the count `c`: each
block is compressed as non-final, with the count of the bytes up to and including it (R134, R138). -/
def chainBlocks (h : Vector Word 8) (c : Nat) (data : List Byte) : Nat → Vector Word 8
  | 0 => h
  | n + 1 =>
    let upTo := c + Config.block * (n + 1)
    compress (chainBlocks h c data n) (blockAt data n) (countLow upTo) (countHigh upTo) 0 0

/-- The digest of `data` (key bytes included) from the seed `h`: `floor(T / 128)` non-final compressions, then one final
compression of the `T mod 128` bytes left, zero-padded, with the count `T` (R138). -/
def referenceDigest (h : Vector Word 8) (n : Nat) (e : Bool) (data : List Byte) : List Byte :=
  let full := data.length / Config.block
  digestBytes
    (compress (chainBlocks h 0 data full) (blockAt data full) (countLow data.length) (countHigh data.length)
      ones64 (layerFlag e)) n

end Sys2Proof.Machine
end

