-- ==== Sys2Proof/Safety.lean ====
section
/-! DEFINITION. The terms claims are stated in: the invariant of reachable states (10_state.md R38), what a wipe
leaves, which parts of two states agree. -/

namespace Sys2Proof.Machine

/-- The parameters are legal: the conditions of `VALID` on the registers (40_config_encoder.md R91). -/
structure State.Valid (s : State) : Prop where
  dlen_min : 1 ≤ s.p_dlen.toNat
  dlen_max : s.p_dlen.toNat ≤ 64
  klen_max : s.p_klen.toNat ≤ 64
  inner_max : s.p_inner.toNat ≤ 64

/-- The invariant of reachable states: the items of 10_state.md R38 that speak of one state, and the canonical form of
the buffer. The count of item 3 is the subject of the statements about `ABSORB`. -/
structure State.Inv (s : State) : Prop where
  /-- the buffer is in its canonical form -/
  buf_wf : s.buf.wf = true
  /-- item 1 -/
  buf_len_lt : s.buf_len.toNat ≤ 127
  /-- item 2 -/
  dlen_le : s.p_dlen.toNat ≤ 64
  klen_le : s.p_klen.toNat ≤ 64
  inner_le : s.p_inner.toNat ≤ 64
  key_zero : ∀ j : Fin 64, s.p_klen.toNat ≤ j.val → s.p_key[j] = 0
  salt_zero : s.p_salt_en = false → s.p_salt = Vector.replicate 16 0
  pers_zero : s.p_pers_en = false → s.p_pers = Vector.replicate 16 0
  /-- item 3 -/
  initialized : s.lc = .initialized →
    1 ≤ s.p_dlen.toNat ∧ s.f0 = 0 ∧ s.f1 = 0 ∧ s.t0.toNat % 128 = 0
  /-- item 4 -/
  tail_zero : s.lc = .initialized → ∀ j, s.buf_len.toNat ≤ j → s.buf.read j = 0
  /-- item 5 -/
  uninitialized : s.lc = .uninitialized →
    s.h = Vector.replicate 8 0 ∧ s.t0 = 0 ∧ s.t1 = 0 ∧ s.f0 = 0 ∧ s.f1 = 0 ∧ (∀ j, s.buf.read j = 0) ∧ s.buf_len = 0
  /-- item 6 -/
  closed : s.lc = .closed →
    s.f0 = 0xffffffffffffffff ∧ (s.f1 = 0 ∨ s.f1 = 0xffffffffffffffff) ∧ 1 ≤ s.p_dlen.toNat
  /-- item 7 -/
  flags : (s.f0 = 0 ∨ s.f0 = 0xffffffffffffffff) ∧ (s.f1 = 0 ∨ s.f1 = 0xffffffffffffffff)

/-- Every parameter register of `t` holds what it holds in `s`. -/
structure SameParams (s t : State) : Prop where
  dlen : t.p_dlen = s.p_dlen
  klen : t.p_klen = s.p_klen
  key : t.p_key = s.p_key
  fanout : t.p_fanout = s.p_fanout
  depth : t.p_depth = s.p_depth
  leaf : t.p_leaf = s.p_leaf
  inner : t.p_inner = s.p_inner
  salt_en : t.p_salt_en = s.p_salt_en
  salt : t.p_salt = s.p_salt
  pers_en : t.p_pers_en = s.p_pers_en
  pers : t.p_pers = s.p_pers

/-- The hashing state is wiped (10_state.md R40): every byte of the buffer included. -/
structure Wiped (t : State) : Prop where
  lc : t.lc = .uninitialized
  h : ∀ i : Fin 8, t.h[i] = 0
  t0 : t.t0 = 0
  t1 : t.t1 = 0
  f0 : t.f0 = 0
  f1 : t.f1 = 0
  buf : ∀ a, t.buf.read a = 0
  buf_len : t.buf_len = 0

/-- The command was answered `OK` with the data bytes, and the commands still waiting are the same. -/
structure Answered (s t : State) (data : List Byte) : Prop where
  resp : t.resp = some ⟨.ok, data⟩
  cmds : t.cmds = s.cmds

/-- `s` after a command that ended in an error: the response, and nothing else, is new (60_exceptions.md R162). -/
def failed (s : State) (code : Status) : State := { s with resp := some ⟨code, []⟩ }

/-- Two uninitialized states with the same parameters, the same waiting commands and the same response: they may differ
in the hashing state alone (10_state.md R39, R40: "unobservable"). -/
structure DifferInWipedState (s t : State) : Prop where
  lc_left : s.lc = .uninitialized
  lc_right : t.lc = .uninitialized
  params : SameParams s t
  cmds : t.cmds = s.cmds
  resp : t.resp = s.resp

/-- Two runs end the same way as far as the host can see: both go on with the same response, or both stop for the same
reason. -/
def SameToTheHost : Result → Result → Prop
  | .next s, .next t => s.resp = t.resp ∧ s.cmds = t.cmds
  | .fault f, .fault g => f = g
  | .refused q, .refused r => q = r
  | _, _ => False

/-- The command `ABSORB` of a payload (30_encoding.md R78). -/
def absorbCommand (d : List Byte) : Command := encode (.absorb (BitVec.ofNat 16 d.length) d)

end Sys2Proof.Machine
end

