-- ==== Sys2Proof/Certificates/Slice0/Obligations.lean ====
section
/-! DEFINITION. The statements for the provers, from the numbered rules of spec/. -/

open Sys2Proof Sys2Proof.Machine

/-! ## Encoding -/

/-- 30_encoding.md R70 to R72, D30: the bytes of a command's transaction decode to the command, with every operand, at
every value the encoding admits. -/
def Obligations.DecodeOfEncodedBytes : Prop :=
  ∀ i : Instr, decodeBytes (encodeBytes i) = some i

/-- 30_encoding.md R72, R77: a command has one meaning and one spelling; what decodes to `i` is the encoding of `i`. -/
def Obligations.EncodeOfDecodedCommand : Prop :=
  ∀ (c : Command) (i : Instr), decode c = .ok i → encode i = c

/-- 30_encoding.md R72: the decoder answers what the match and mask table of R72 says: the command of the one row the
header matches, and no command exactly when the header matches no row. -/
def Obligations.DecoderAgreesWithTheMatchMaskTable : Prop :=
  (∀ (c : Command) (i : Instr), decode c = .ok i →
    ∃ r ∈ opcodeRows, r.spells c.hdr ∧ r.mnemonic = i.mnemonic ∧ ∀ r' ∈ opcodeRows, r'.spells c.hdr → r' = r) ∧
  (∀ c : Command, (∃ e, decode c = .error e) ↔ ∀ r ∈ opcodeRows, ¬ r.spells c.hdr)

/-- 30_encoding.md R80: the worked encodings and the reserved examples. -/
def Obligations.WorkedHeadersDecode : Prop :=
  ∀ p : List Byte,
    decode ⟨0x03000003, p⟩ = .ok (.absorb 3 p) ∧ decode ⟨0x01010020, p⟩ = .ok (.setpKey 32 p) ∧
    decode ⟨0x01020010, p⟩ = .ok (.setpSalt 16 p) ∧ decode ⟨0x01060004, p⟩ = .ok (.setpLeaf p) ∧
    decode ⟨0x04010000, p⟩ = .ok (.final true p) ∧
    decode ⟨0x00000000, p⟩ = .error .opcode ∧ decode ⟨0x06000000, p⟩ = .error .opcode ∧
    decode ⟨0x01080001, p⟩ = .error .selector ∧ decode ⟨0x01000002, p⟩ = .error .length ∧
    decode ⟨0x02000001, p⟩ = .error .length ∧ decode ⟨0x04020000, p⟩ = .error .argument ∧
    decode ⟨0x03010000, p⟩ = .error .argument

/-- 30_encoding.md section 5: the text of a command with a payload, the payload in hexadecimal, two digits per byte and
the first byte first, spells that command with that payload; `-` spells the empty one. -/
def Obligations.AssemblerReadsHexadecimalPayloads : Prop :=
  (∀ bs : List Byte, bs ≠ [] → bs.length ≤ 65535 →
    assemble ("SETP.KEY ".toList ++ hexText bs) = some (.setpKey (BitVec.ofNat 16 bs.length) bs) ∧
    assemble ("SETP.SALT ".toList ++ hexText bs) = some (.setpSalt (BitVec.ofNat 16 bs.length) bs) ∧
    assemble ("SETP.PERS ".toList ++ hexText bs) = some (.setpPers (BitVec.ofNat 16 bs.length) bs) ∧
    assemble ("ABSORB ".toList ++ hexText bs) = some (.absorb (BitVec.ofNat 16 bs.length) bs)) ∧
  assemble "SETP.KEY -".toList = some (.setpKey 0 []) ∧ assemble "SETP.SALT -".toList = some (.setpSalt 0 []) ∧
  assemble "SETP.PERS -".toList = some (.setpPers 0 []) ∧ assemble "ABSORB -".toList = some (.absorb 0 [])

/-! ## The step -/

/-- 00_scope.md R7: the core takes the oldest command issued; a command that decodes to `i` is executed on the state
without that command, and nothing else is added around it. -/
def Obligations.StepExecutesTheOldestCommand : Prop :=
  ∀ (s : State) (c : Command) (rest : List Command) (i : Instr),
    s.cmds = c :: rest → decode c = .ok i → step s = exec i { s with cmds := rest }

/-- 30_encoding.md R76, 60_exceptions.md R158: a header that matches no row of R72 is answered `USE_RESERVED` (0x22)
and changes nothing, whatever the payload and the state. -/
def Obligations.ReservedHeaderChangesNothing : Prop :=
  statusCode .useReserved = 0x22 ∧
  ∀ (s : State) (c : Command) (rest : List Command),
    s.cmds = c :: rest → (∀ r ∈ opcodeRows, ¬ r.spells c.hdr) →
    step s = .next (failed { s with cmds := rest } .useReserved)

/-- 60_exceptions.md R170: with no command issued the core keeps all its state. That such a step is a next state is the
model's choice (log 3). -/
def Obligations.IdleCoreKeepsItsState : Prop :=
  ∀ s : State, s.cmds = [] → step s = .next s

/-- The model's own (log 1, log 9): a table word that decodes to `i`, issued as the next command, is executed as `i` on
the state it was issued in. -/
def Obligations.IssuedTableWordIsExecuted : Prop :=
  ∀ (s : State) (nbits w : Nat) (i : Instr),
    decodeTableWord nbits w = some i → step (s.withFetchWord nbits w) = exec i s

/-! ## The `SETP` commands: the length check, the value check, the write and the wipe -/

/-- 40_config_encoder.md R93, R92: the header, the length check, the range of a digest length, the write and the wipe. -/
def Obligations.SetpDlenChecksStoresAndWipes : Prop :=
  ∀ s : State,
    (∀ p : List Byte, encode (.setpDlen p) = ⟨0x01000001, p⟩) ∧
    (∀ p : List Byte, p.length ≠ 1 → exec (.setpDlen p) s = .next (failed s .useLength)) ∧
    (∀ n : Byte, n.toNat < 1 ∨ 64 < n.toNat → exec (.setpDlen [n]) s = .next (failed s .cfgDlen)) ∧
    (∀ n : Byte, 1 ≤ n.toNat → n.toNat ≤ 64 →
      ∃ t, exec (.setpDlen [n]) s = .next t ∧ SameParams { s with p_dlen := n } t ∧ Wiped t ∧ Answered s t [])

/-- 40_config_encoder.md R94, R92: the key length and the key bytes, zero at the positions the key does not reach. -/
def Obligations.SetpKeyChecksStoresAndWipes : Prop :=
  ∀ (s : State) (len : BitVec 16) (p : List Byte),
    (p.length ≠ len.toNat → exec (.setpKey len p) s = .next (failed s .useLength)) ∧
    (p.length = len.toNat → 64 < len.toNat → exec (.setpKey len p) s = .next (failed s .cfgKeylen)) ∧
    (p.length = len.toNat → len.toNat ≤ 64 →
      ∃ t, exec (.setpKey len p) s = .next t ∧ t.p_klen.toNat = len.toNat ∧
        (∀ j : Fin 64, t.p_key[j] = if h : j.val < p.length then p[j.val] else 0) ∧
        SameParams { s with p_klen := t.p_klen, p_key := t.p_key } t ∧ Wiped t ∧ Answered s t [])

/-- 40_config_encoder.md R95, R92: a salt is present with 16 bytes or absent. -/
def Obligations.SetpSaltChecksStoresAndWipes : Prop :=
  ∀ (s : State) (len : BitVec 16) (p : List Byte),
    (p.length ≠ len.toNat → exec (.setpSalt len p) s = .next (failed s .useLength)) ∧
    (p.length = len.toNat → len.toNat ≠ 0 → len.toNat ≠ 16 →
      exec (.setpSalt len p) s = .next (failed s .cfgSalt)) ∧
    (p.length = len.toNat → len.toNat = 16 →
      ∃ t, exec (.setpSalt len p) s = .next t ∧ t.p_salt_en = true ∧
        (∀ j : Fin 16, p[j.val]? = some t.p_salt[j]) ∧
        SameParams { s with p_salt_en := true, p_salt := t.p_salt } t ∧ Wiped t ∧ Answered s t []) ∧
    (p.length = len.toNat → len.toNat = 0 →
      ∃ t, exec (.setpSalt len p) s = .next t ∧ (∀ j : Fin 16, t.p_salt[j] = 0) ∧
        SameParams { s with p_salt_en := false, p_salt := t.p_salt } t ∧ Wiped t ∧ Answered s t [])

/-- 40_config_encoder.md R96, R92: a personalization is present with 16 bytes or absent. -/
def Obligations.SetpPersChecksStoresAndWipes : Prop :=
  ∀ (s : State) (len : BitVec 16) (p : List Byte),
    (p.length ≠ len.toNat → exec (.setpPers len p) s = .next (failed s .useLength)) ∧
    (p.length = len.toNat → len.toNat ≠ 0 → len.toNat ≠ 16 →
      exec (.setpPers len p) s = .next (failed s .cfgPers)) ∧
    (p.length = len.toNat → len.toNat = 16 →
      ∃ t, exec (.setpPers len p) s = .next t ∧ t.p_pers_en = true ∧
        (∀ j : Fin 16, p[j.val]? = some t.p_pers[j]) ∧
        SameParams { s with p_pers_en := true, p_pers := t.p_pers } t ∧ Wiped t ∧ Answered s t []) ∧
    (p.length = len.toNat → len.toNat = 0 →
      ∃ t, exec (.setpPers len p) s = .next t ∧ (∀ j : Fin 16, t.p_pers[j] = 0) ∧
        SameParams { s with p_pers_en := false, p_pers := t.p_pers } t ∧ Wiped t ∧ Answered s t [])

/-- 40_config_encoder.md R97, R98, R92: fan-out and depth take every value; the length is the only check. -/
def Obligations.SetpFanoutAndDepthStoreAndWipe : Prop :=
  ∀ s : State,
    (∀ p : List Byte, p.length ≠ 1 → exec (.setpFanout p) s = .next (failed s .useLength) ∧
      exec (.setpDepth p) s = .next (failed s .useLength)) ∧
    (∀ n : Byte,
      (∃ t, exec (.setpFanout [n]) s = .next t ∧ SameParams { s with p_fanout := n } t ∧ Wiped t ∧ Answered s t []) ∧
      (∃ t, exec (.setpDepth [n]) s = .next t ∧ SameParams { s with p_depth := n } t ∧ Wiped t ∧ Answered s t []))

/-- 40_config_encoder.md R99, R92: the header, the length check; the leaf size is the four payload bytes read little-endian; every value is taken. -/
def Obligations.SetpLeafStoresAndWipes : Prop :=
  ∀ s : State,
    (∀ p : List Byte, encode (.setpLeaf p) = ⟨0x01060004, p⟩) ∧
    (∀ p : List Byte, p.length ≠ 4 → exec (.setpLeaf p) s = .next (failed s .useLength)) ∧
    (∀ b0 b1 b2 b3 : Byte,
      ∃ t, exec (.setpLeaf [b0, b1, b2, b3]) s = .next t ∧
        t.p_leaf.toNat = b0.toNat + b1.toNat * 2 ^ 8 + b2.toNat * 2 ^ 16 + b3.toNat * 2 ^ 24 ∧
        SameParams { s with p_leaf := t.p_leaf } t ∧ Wiped t ∧ Answered s t [])

/-- 40_config_encoder.md R100, R92: the header, the length check, the range of an intermediate hash length, the write
and the wipe. -/
def Obligations.SetpInnerChecksStoresAndWipes : Prop :=
  ∀ s : State,
    (∀ p : List Byte, encode (.setpInner p) = ⟨0x01070001, p⟩) ∧
    (∀ p : List Byte, p.length ≠ 1 → exec (.setpInner p) s = .next (failed s .useLength)) ∧
    (∀ n : Byte, 64 < n.toNat → exec (.setpInner [n]) s = .next (failed s .cfgInner)) ∧
    (∀ n : Byte, n.toNat ≤ 64 →
      ∃ t, exec (.setpInner [n]) s = .next t ∧ SameParams { s with p_inner := n } t ∧ Wiped t ∧ Answered s t [])

/-! ## Errors -/

/-- 60_exceptions.md R157, R161 item 2: a payload whose size differs from the `len` field of the header is refused whole,
by every command and in every state, before the lifecycle and the parameters are looked at. -/
def Obligations.WrongPayloadSizeIsRefusedWhole : Prop :=
  statusCode .useLength = 0x21 ∧
  ∀ (i : Instr) (s : State), i.payload.length ≠ (lenField (encodeHeader i)).toNat →
    exec i s = .next (failed s .useLength)

/-- 60_exceptions.md R162: a command that raises an error changes no state element, and its response carries the status
and no data. -/
def Obligations.FailedCommandChangesNothing : Prop :=
  ∀ (i : Instr) (s t : State) (r : Response),
    exec i s = .next t → t.resp = some r → r.status ≠ .ok → t = failed s r.status

/-- 60_exceptions.md R163: no error is sticky; the core takes the next command as if the failed one had not been issued,
and the same wrong command fails again in the same way. -/
def Obligations.FailedCommandLeavesNoTrace : Prop :=
  ∀ (i : Instr) (s t : State) (r : Response),
    exec i s = .next t → t.resp = some r → r.status ≠ .ok →
      exec i t = .next t ∧ ∀ j : Instr, exec j t = exec j s

/-- 60_exceptions.md R156: `ABSORB`, an empty one included, and `FINAL` fail on a closed core with nothing changed; no
other command ever raises `USE_CLOSED`. -/
def Obligations.ClosedCoreRefusesAbsorbAndFinal : Prop :=
  statusCode .useClosed = 0x20 ∧
  (∀ (s : State) (len : BitVec 16) (d : List Byte), s.lc = .closed → d.length = len.toNat →
    exec (.absorb len d) s = .next (failed s .useClosed)) ∧
  (∀ (s : State) (e : Bool), s.lc = .closed → exec (.final e []) s = .next (failed s .useClosed)) ∧
  (∀ (i : Instr) (s t : State) (r : Response), exec i s = .next t → t.resp = some r → r.status = .useClosed →
    s.lc = .closed ∧ ((∃ len d, i = .absorb len d) ∨ ∃ e p, i = .final e p))

/-- 30_encoding.md R75: the status codes; an error response has no data; a successful one has none but for `FINAL`,
whose data has `p_dlen` bytes, and `DLEN`, whose data is the byte `p_dlen`. The premise `p_dlen <= 64` is item 2 of
10_state.md R38. -/
def Obligations.ResponseDataComeFromFinalAndDlenOnly : Prop :=
  (statusCode .ok = 0x00 ∧ statusCode .cfgDlen = 0x10 ∧ statusCode .cfgKeylen = 0x11 ∧ statusCode .cfgInner = 0x12 ∧
    statusCode .cfgSalt = 0x13 ∧ statusCode .cfgPers = 0x14 ∧ statusCode .useClosed = 0x20 ∧
    statusCode .useLength = 0x21 ∧ statusCode .useReserved = 0x22) ∧
  ∀ (i : Instr) (s t : State) (r : Response), s.p_dlen.toNat ≤ 64 → exec i s = .next t → t.resp = some r →
    (r.status ≠ .ok → r.data = []) ∧
    (r.status = .ok → r.data ≠ [] →
      (∃ e p, i = .final e p ∧ r.data.length = s.p_dlen.toNat) ∨ (∃ p, i = .dlen p ∧ r.data = [s.p_dlen])) ∧
    (r.status = .ok → ∀ e p, i = .final e p → r.data.length = s.p_dlen.toNat) ∧
    (r.status = .ok → ∀ p, i = .dlen p → r.data = [s.p_dlen])

/-- The model's own (log 5): the only stop of any command is a byte of `ABSORB` on an initialized core whose `buf_len`
is 128 or more, a state no run reaches (10_state.md R38 item 1). -/
def Obligations.OnlyAnOffsetOutsideTheBufferFaults : Prop :=
  ∀ (i : Instr) (s : State),
    (∀ f, exec i s = .fault f →
      s.lc = .initialized ∧ 128 ≤ s.buf_len.toNat ∧ f = .bufferOffset s.buf_len.toNat ∧ ∃ len d, i = .absorb len d) ∧
    ∀ q, exec i s ≠ .refused q

/-! ## Initialization -/

/-- 40_config_encoder.md R90: the bit layout of the parameter block, every other bit zero. -/
def Obligations.ParameterBlockLayout : Prop :=
  ∀ s : State,
    ((pblock s)[0].toNat = s.p_dlen.toNat + s.p_klen.toNat * 2 ^ 8 + s.p_fanout.toNat * 2 ^ 16 +
      s.p_depth.toNat * 2 ^ 24 + s.p_leaf.toNat * 2 ^ 32) ∧
    (pblock s)[1] = 0 ∧ (pblock s)[2].toNat = s.p_inner.toNat * 2 ^ 8 ∧ (pblock s)[3] = 0 ∧
    (∀ k : Fin 8, (pblock s)[4].extractLsb' (8 * k.val) 8 = s.p_salt[k.val]) ∧
    (∀ k : Fin 8, (pblock s)[5].extractLsb' (8 * k.val) 8 = s.p_salt[8 + k.val]) ∧
    (∀ k : Fin 8, (pblock s)[6].extractLsb' (8 * k.val) 8 = s.p_pers[k.val]) ∧
    (∀ k : Fin 8, (pblock s)[7].extractLsb' (8 * k.val) 8 = s.p_pers[8 + k.val])

/-- 42_streaming_digest.md R131, 10_state.md R41: what `INIT` leaves, in every lifecycle state, when the parameters are
legal; with a payload it is refused. -/
def Obligations.InitSeedsTheHash : Prop :=
  ∀ s : State, s.Valid →
    ∃ t, exec (.init []) s = .next t ∧ t.lc = .initialized ∧
      (∀ i : Fin 8, t.h[i] = iv[i] ^^^ (pblock s)[i]) ∧ t.t0 = 0 ∧ t.t1 = 0 ∧ t.f0 = 0 ∧ t.f1 = 0 ∧
      (∀ j : Fin 64, j.val < s.p_klen.toNat → t.buf.read j.val = s.p_key[j]) ∧
      (∀ a, s.p_klen.toNat ≤ a → t.buf.read a = 0) ∧
      t.buf_len.toNat = s.p_klen.toNat ∧ SameParams s t ∧ Answered s t []

/-- 40_config_encoder.md R91, 42_streaming_digest.md R132: an initialization, explicit or implicit, raises the error of
the first failing condition, in the order of R91, and changes nothing. -/
def Obligations.IllegalParametersStopInitialization : Prop :=
  ∀ (s : State) (i : Instr), i.LengthAgrees →
    (∃ p, i = .init p) ∨ (s.lc = .uninitialized ∧ ((∃ len d, i = .absorb len d) ∨ ∃ e p, i = .final e p)) →
    (s.p_dlen.toNat < 1 ∨ 64 < s.p_dlen.toNat → exec i s = .next (failed s .cfgDlen)) ∧
    (1 ≤ s.p_dlen.toNat → s.p_dlen.toNat ≤ 64 → 64 < s.p_klen.toNat → exec i s = .next (failed s .cfgKeylen)) ∧
    (1 ≤ s.p_dlen.toNat → s.p_dlen.toNat ≤ 64 → s.p_klen.toNat ≤ 64 → 64 < s.p_inner.toNat →
      exec i s = .next (failed s .cfgInner))

/-- 42_streaming_digest.md R132: on an uninitialized core with legal parameters, `ABSORB` and `FINAL` do what they do
after an `INIT`. -/
def Obligations.ImplicitInitializationIsInit : Prop :=
  ∀ s : State, s.lc = .uninitialized → s.Valid →
    ∃ t, exec (.init []) s = .next t ∧
      (∀ (len : BitVec 16) (d : List Byte), d.length = len.toNat → exec (.absorb len d) s = exec (.absorb len d) t) ∧
      (∀ e : Bool, exec (.final e []) s = exec (.final e []) t)

/-! ## The counter -/

/-- 42_streaming_digest.md R133: the increment is the addition of the 128-bit value modulo `2^128`, in every state; it
writes nothing but the counter. -/
def Obligations.CounterIncrementIsA128BitAddition : Prop :=
  ∀ (s : State) (n : Nat), n ≤ 128 →
    (s.ctrAdd n).count = (s.count + n) % 2 ^ 128 ∧
    { s.ctrAdd n with t0 := s.t0, t1 := s.t1 } = s

/-! ## Absorbing -/

/-- 42_streaming_digest.md R134, the case in which no block becomes full: the bytes are stored from the offset `ABSORB`
writes to, every other byte of the buffer and every register but `buf_len` is unchanged. -/
def Obligations.AbsorbStoresPendingBytes : Prop :=
  ∀ (s : State) (len : BitVec 16) (d : List Byte),
    s.lc = .initialized → s.buf.wf = true → d.length = len.toNat → s.buf_len.toNat + len.toNat < 128 →
    ∃ t, exec (.absorb len d) s = .next t ∧
      (∀ k (hk : k < d.length), t.buf.read (absorbOffset s + k) = d[k]) ∧
      (∀ a, a < absorbOffset s ∨ absorbOffset s + d.length ≤ a → t.buf.read a = s.buf.read a) ∧
      t.buf_len.toNat = s.buf_len.toNat + len.toNat ∧
      t.lc = .initialized ∧ t.h = s.h ∧ t.t0 = s.t0 ∧ t.t1 = s.t1 ∧ t.f0 = s.f0 ∧ t.f1 = s.f1 ∧
      SameParams s t ∧ Answered s t []

/-- 42_streaming_digest.md R134, R138, every case: the full blocks of the pending bytes and the payload are compressed
in order, each with the count of the bytes up to and including it and zero flags; the bytes left are pending. -/
def Obligations.AbsorbCompressesEveryFullBlock : Prop :=
  ∀ (s : State) (len : BitVec 16) (d : List Byte),
    s.lc = .initialized → s.buf.wf = true → s.buf_len.toNat ≤ 127 → d.length = len.toNat →
    let data := pendingBytes s ++ d
    let full := data.length / 128
    ∃ t, exec (.absorb len d) s = .next t ∧
      t.h = chainBlocks s.h s.count data full ∧
      t.count = (s.count + 128 * full) % 2 ^ 128 ∧
      t.buf_len.toNat = (s.buf_len.toNat + len.toNat) % 128 ∧
      pendingBytes t = data.drop (128 * full) ∧
      (∀ a, t.buf_len.toNat ≤ a → t.buf.read a = if full = 0 then s.buf.read a else 0) ∧
      t.lc = .initialized ∧ t.f0 = s.f0 ∧ t.f1 = s.f1 ∧ SameParams s t ∧ Answered s t []

/-- 42_streaming_digest.md R139: absorbing a payload in one command is absorbing any split of it in two, in every
state, empty pieces and errors included. -/
def Obligations.AbsorbIsIndependentOfChunking : Prop :=
  ∀ (s : State) (l1 l2 l : BitVec 16) (d1 d2 : List Byte),
    d1.length = l1.toNat → d2.length = l2.toNat → (d1 ++ d2).length = l.toNat →
    exec (.absorb l (d1 ++ d2)) s =
      match exec (.absorb l1 d1) s with
      | .next t => exec (.absorb l2 d2) t
      | stop => stop

/-! ## Finalizing -/

/-- 42_streaming_digest.md R135: the counter takes the pending bytes, the flags are set, the buffer is zero-padded, one
compression runs on it, the core is closed and the digest is answered; nothing else changes. -/
def Obligations.FinalCompressesOnceAndCloses : Prop :=
  ∀ (s : State) (e : Bool), s.lc = .initialized → s.buf_len.toNat ≤ 128 →
    ∃ t, exec (.final e []) s = .next t ∧
      t.count = (s.count + s.buf_len.toNat) % 2 ^ 128 ∧
      t.f0 = 0xffffffffffffffff ∧ t.f1 = (if e = true then 0xffffffffffffffff else 0) ∧
      (∀ a, t.buf.read a = if a < s.buf_len.toNat then s.buf.read a else 0) ∧
      t.h = compress s.h t.buf t.t0 t.t1 t.f0 t.f1 ∧ t.lc = .closed ∧ t.buf_len = s.buf_len ∧
      SameParams s t ∧ Answered s t (digestBytes t.h s.p_dlen.toNat)

/-- 42_streaming_digest.md R136, 20_memory.md R52: the digest has `n` bytes, and byte `j` is
`h[j div 8][8*(j mod 8)+7 : 8*(j mod 8)]`. -/
def Obligations.DigestIsTruncatedLittleEndianState : Prop :=
  ∀ (h : Vector Word 8) (n : Nat), 1 ≤ n → n ≤ 64 →
    (digestBytes h n).length = n ∧
    ∀ j : Fin 64, j.val < n →
      (digestBytes h n)[j.val]? = some ((h[j.val / 8]'(by omega)).extractLsb' (8 * (j.val % 8)) 8)

/-- 42_streaming_digest.md R137: `DLEN` answers the byte `p_dlen` in every lifecycle state and writes nothing; with a
payload it is refused. -/
def Obligations.DlenAnswersTheDigestLength : Prop :=
  ∀ s : State,
    exec (.dlen []) s = .next { s with resp := some ⟨.ok, [s.p_dlen]⟩ } ∧
    ∀ p : List Byte, p.length ≠ 0 → exec (.dlen p) s = .next (failed s .useLength)

/-! ## The compression -/

/-- 20_memory.md R51, 41_compression_core.md R111: message word `i` is bytes `8i` to `8i+7` of the block,
little-endian. -/
def Obligations.MessageWordsAreLittleEndian : Prop :=
  ∀ (block : Memory) (i : Fin 16) (k : Fin 8),
    (messageWords block)[i].extractLsb' (8 * k.val) 8 = block.read (8 * i.val + k.val)

/-- 41_compression_core.md R112: the sixteen working words. -/
def Obligations.WorkingWordsAtEntry : Prop :=
  ∀ (h : Vector Word 8) (t0 t1 f0 f1 : Word),
    let v := initWork h t0 t1 f0 f1
    (∀ i : Fin 8, v[i.val] = h[i]) ∧ (∀ i : Fin 4, v[8 + i.val] = iv[i.val]) ∧
    v[12] = iv[4] ^^^ t0 ∧ v[13] = iv[5] ^^^ t1 ∧ v[14] = iv[6] ^^^ f0 ∧ v[15] = iv[7] ^^^ f1

/-- 00_scope.md section 5, 41_compression_core.md R117: bit `i` of a rotation right by `n` is bit `(i + n) mod 64` of the
word, and a rotation loses no bit. -/
def Obligations.RotationMovesEveryBit : Prop :=
  ∀ (w : Word) (n : Nat), 1 ≤ n → n ≤ 63 →
    (∀ i, i < 64 → (ror64 w n).getLsbD i = w.getLsbD ((i + n) % 64)) ∧ ror64 (ror64 w n) (64 - n) = w

/-- 41_compression_core.md R113: the eight assignments of `G`, the sums modulo `2^64` as numbers, the rotations as Lean's
own. -/
def Obligations.MixFollowsTheEightAssignments : Prop :=
  ∀ (a b c d x y : Word),
    ∃ a1 d1 c1 b1 a2 d2 c2 b2 : Word,
      a1.toNat = (a.toNat + b.toNat + x.toNat) % 2 ^ 64 ∧ d1 = (d ^^^ a1).rotateRight 32 ∧
      c1.toNat = (c.toNat + d1.toNat) % 2 ^ 64 ∧ b1 = (b ^^^ c1).rotateRight 24 ∧
      a2.toNat = (a1.toNat + b1.toNat + y.toNat) % 2 ^ 64 ∧ d2 = (d1 ^^^ a2).rotateRight 16 ∧
      c2.toNat = (c1.toNat + d2.toNat) % 2 ^ 64 ∧ b2 = (b1 ^^^ c2).rotateRight 63 ∧
      mixG ⟨a, b, c, d⟩ x y = ⟨a2, b2, c2, d2⟩

/-- 41_compression_core.md R114: a round is the eight evaluations of the table in its order; an evaluation writes the
results of `G` at its four indices and nowhere else; a row of `SIGMA` selects every message word once. -/
def Obligations.RoundAppliesTheEightPositionsInOrder : Prop :=
  (∀ (m : Message) (v : Work) (r : Fin 12),
    mixRound m v r =
      let v := applyG v ⟨0, 4, 8, 12⟩ m[sigma[r][0]] m[sigma[r][1]]
      let v := applyG v ⟨1, 5, 9, 13⟩ m[sigma[r][2]] m[sigma[r][3]]
      let v := applyG v ⟨2, 6, 10, 14⟩ m[sigma[r][4]] m[sigma[r][5]]
      let v := applyG v ⟨3, 7, 11, 15⟩ m[sigma[r][6]] m[sigma[r][7]]
      let v := applyG v ⟨0, 5, 10, 15⟩ m[sigma[r][8]] m[sigma[r][9]]
      let v := applyG v ⟨1, 6, 11, 12⟩ m[sigma[r][10]] m[sigma[r][11]]
      let v := applyG v ⟨2, 7, 8, 13⟩ m[sigma[r][12]] m[sigma[r][13]]
      applyG v ⟨3, 4, 9, 14⟩ m[sigma[r][14]] m[sigma[r][15]]) ∧
  (∀ (v : Work) (j : Fin 8) (x y : Word),
    let p := positions[j]
    let q := mixG ⟨v[p.ia], v[p.ib], v[p.ic], v[p.id]⟩ x y
    let w := applyG v p x y
    w[p.ia] = q.a ∧ w[p.ib] = q.b ∧ w[p.ic] = q.c ∧ w[p.id] = q.d ∧
      ∀ k : Fin 16, k ≠ p.ia → k ≠ p.ib → k ≠ p.ic → k ≠ p.id → w[k] = v[k]) ∧
  (∀ (r : Fin 12) (k : Fin 16), ∃ i : Fin 16, sigma[r][i] = k ∧ ∀ i' : Fin 16, sigma[r][i'] = k → i' = i)

/-- 41_compression_core.md R118: the four column evaluations of a round, with any message words, commute with one
another, and so do the four diagonal ones. -/
def Obligations.EvaluationsOfOneGroupCommute : Prop :=
  ∀ (v : Work) (i j : Fin 8) (x y x' y' : Word), i ≠ j → (i.val < 4 ↔ j.val < 4) →
    applyG (applyG v positions[i] x y) positions[j] x' y' = applyG (applyG v positions[j] x' y') positions[i] x y

/-- 41_compression_core.md R115, R116: twelve rounds in order, rounds 10 and 11 with the rows of rounds 0 and 1, then the
feed-forward. -/
def Obligations.CompressionIsTwelveRoundsAndFeedForward : Prop :=
  (∀ (h : Vector Word 8) (block : Memory) (t0 t1 f0 f1 : Word) (i : Fin 8),
    let m := messageWords block
    let v := mixRound m (mixRound m (mixRound m (mixRound m (mixRound m (mixRound m (mixRound m (mixRound m (mixRound m
      (mixRound m (mixRound m (mixRound m (initWork h t0 t1 f0 f1) 0) 1) 2) 3) 4) 5) 6) 7) 8) 9) 10) 11
    (compress h block t0 t1 f0 f1)[i] = h[i] ^^^ v[i.val] ^^^ v[i.val + 8]) ∧
  (∀ (m : Message) (v : Work), mixRound m v 10 = mixRound m v 0 ∧ mixRound m v 11 = mixRound m v 1)

/-- 41_compression_core.md R110, R111: a compression reads the 128 bytes of the block and nothing else of the buffer. -/
def Obligations.CompressionReadsTheBlockOnly : Prop :=
  ∀ (h : Vector Word 8) (m m' : Memory) (t0 t1 f0 f1 : Word),
    (∀ a, a < 128 → m.read a = m'.read a) → compress h m t0 t1 f0 f1 = compress h m' t0 t1 f0 f1

/-! ## The whole machine -/

/-- 42_streaming_digest.md R130: the lifecycle transitions of commands that succeed, and that one that fails leaves `lc`
as it was. -/
def Obligations.LifecycleTransitions : Prop :=
  ∀ (i : Instr) (s t : State) (r : Response), exec i s = .next t → t.resp = some r →
    (r.status ≠ .ok → t.lc = s.lc) ∧
    (r.status = .ok → t.lc =
      match i with
      | .setpDlen _ | .setpKey _ _ | .setpSalt _ _ | .setpPers _ _ => .uninitialized
      | .setpFanout _ | .setpDepth _ | .setpLeaf _ | .setpInner _ => .uninitialized
      | .init _ => .initialized
      | .absorb _ _ => .initialized
      | .final _ _ => .closed
      | .dlen _ => s.lc) ∧
    (s.lc = .closed → (∃ len d, i = .absorb len d) ∨ (∃ e p, i = .final e p) → r.status ≠ .ok)

/-- 10_state.md R37: `INIT`, `ABSORB`, `FINAL` and `DLEN` write no parameter register. -/
def Obligations.HashCommandsKeepTheParameters : Prop :=
  ∀ (i : Instr) (s t : State), exec i s = .next t →
    (∃ p, i = .init p) ∨ (∃ len d, i = .absorb len d) ∨ (∃ e p, i = .final e p) ∨ (∃ p, i = .dlen p) →
    SameParams s t

/-- 10_state.md R39, 70_reset_and_hazards.md R180: the state after reset. -/
def Obligations.ResetValues : Prop :=
  State.reset.lc = .uninitialized ∧ (∀ i : Fin 8, State.reset.h[i] = 0) ∧
  State.reset.t0 = 0 ∧ State.reset.t1 = 0 ∧ State.reset.f0 = 0 ∧ State.reset.f1 = 0 ∧
  (∀ a, State.reset.buf.read a = 0) ∧ State.reset.buf_len = 0 ∧ State.reset.p_dlen = 0 ∧
  State.reset.p_klen = 0 ∧ (∀ j : Fin 64, State.reset.p_key[j] = 0) ∧ State.reset.p_fanout = 1 ∧
  State.reset.p_depth = 1 ∧ State.reset.p_leaf = 0 ∧ State.reset.p_inner = 0 ∧
  State.reset.p_salt_en = false ∧ (∀ j : Fin 16, State.reset.p_salt[j] = 0) ∧
  State.reset.p_pers_en = false ∧ (∀ j : Fin 16, State.reset.p_pers[j] = 0)

/-- 10_state.md R38: the state after reset meets the invariant. -/
def Obligations.ResetMeetsTheInvariant : Prop := State.reset.Inv

/-- 10_state.md R38: every step keeps the invariant. -/
def Obligations.StepKeepsTheInvariant : Prop :=
  ∀ s t : State, s.Inv → step s = .next t → t.Inv

/-- 00_scope.md R9, 60_exceptions.md R159, 70_reset_and_hazards.md R193: from every state that meets the invariant, a
command, whatever its header and payload, is taken and answered, the answer not depending on the earlier response. -/
def Obligations.EveryCommandIsAnswered : Prop :=
  ∀ (s : State) (c : Command) (rest : List Command), s.Inv → s.cmds = c :: rest →
    ∃ t r, step s = .next t ∧ t.cmds = rest ∧ t.resp = some r ∧ r.data.length ≤ 64 ∧
      ∀ q, step { s with resp := q } = .next t

/-- 70_reset_and_hazards.md R180: no command brings `p_dlen` back to 0, "not set". -/
def Obligations.DigestLengthStaysSet : Prop :=
  ∀ s t : State, s.p_dlen ≠ 0 → step s = .next t → t.p_dlen ≠ 0

/-- 10_state.md R39, R40: the hashing state of an uninitialized core is unobservable: two cores that differ in it alone
give the host the same response after any number of steps. -/
def Obligations.WipedHashingStateIsUnobservable : Prop :=
  ∀ (k : Nat) (s t : State), DifferInWipedState s t → SameToTheHost (core.run k s) (core.run k t)

/-- 42_streaming_digest.md R138, R139, 20_memory.md R58: from every state with legal parameters, `INIT`, any number of
`ABSORB` commands and `FINAL` answer the digest of the key bytes followed by all payloads, whatever the split. -/
def Obligations.HashOfTheConcatenatedPayloads : Prop :=
  ∀ (s : State) (pieces : List (List Byte)) (e : Bool), s.Valid → (∀ d ∈ pieces, d.length ≤ 65535) →
    s.cmds = encode (.init []) :: (pieces.map absorbCommand ++ [encode (.final e [])]) →
    ∃ t, core.run (pieces.length + 2) s = .next t ∧ t.lc = .closed ∧ t.cmds = [] ∧ SameParams s t ∧
      t.resp = some ⟨.ok, referenceDigest (seed s) s.p_dlen.toNat e (keyBytes s ++ pieces.flatten)⟩

/-- 60_exceptions.md R168, 20_memory.md R58: a step of one core is the step of that core alone, and every other core of
the platform keeps its state. -/
def Obligations.CoresOfAPlatformAreIndependent : Prop :=
  ∀ (p p' : Platform) (k : Nat) (s : State), p.cores[k]? = some s → platformStep k p = .next p' →
    (∃ t, step s = .next t ∧ p'.cores[k]? = some t) ∧ ∀ j, j ≠ k → p'.cores[j]? = p.cores[j]?
end

