-- ==== Sys2Proof/Laws/Bytes.lean ====
section
/-! SUPPORT. Laws of the byte order: reading back what was written, and the single bytes of a word. -/

namespace Sys2Proof.Machine

@[simp] theorem length_bytesLE (n v : Nat) : (bytesLE n v).length = n := by
  induction n generalizing v with
  | zero => rfl
  | succ n ih => simp [bytesLE, ih]

theorem leNat_bytesLE (n v : Nat) : leNat (bytesLE n v) = v % 256 ^ n := by
  induction n generalizing v with
  | zero => simp [bytesLE, leNat, Nat.mod_one]
  | succ n ih =>
    rw [bytesLE, leNat, ih, BitVec.toNat_ofNat,
      show (256 : Nat) ^ (n + 1) = 256 * 256 ^ n by rw [Nat.pow_succ, Nat.mul_comm],
      Nat.mod_mul]

theorem leNat_lt (bs : List Byte) : leNat bs < 256 ^ bs.length := by
  induction bs with
  | nil => simp [leNat]
  | cons b bs ih =>
    have hb := b.isLt
    simp only [leNat, List.length_cons, Nat.pow_succ]
    omega

theorem getElem_bytesLE (n v k : Nat) (h : k < n) :
    (bytesLE n v)[k]'(by simpa using h) = BitVec.ofNat 8 (v / 256 ^ k) := by
  induction n generalizing v k with
  | zero => omega
  | succ n ih =>
    cases k with
    | zero => simp [bytesLE]
    | succ k =>
      simp only [bytesLE, List.getElem_cons_succ]
      rw [ih _ _ (by omega), Nat.div_div_eq_div_mul, Nat.pow_succ, Nat.mul_comm]

/-- Byte `k` of a word written little-endian is its bits `8k+7` to `8k`. -/
theorem getElem_bytes64 (w : Word) (k : Nat) (h : k < 8) :
    (bytes64 w)[k]'(by simpa [bytes64] using h) = w.extractLsb' (8 * k) 8 := by
  apply BitVec.eq_of_toNat_eq
  simp only [bytes64, getElem_bytesLE _ _ _ h, BitVec.toNat_ofNat, BitVec.extractLsb'_toNat, Nat.shiftRight_eq_div_pow]
  rw [show (256 : Nat) = 2 ^ 8 from rfl, ← Nat.pow_mul]

@[simp] theorem length_bytes64 (w : Word) : (bytes64 w).length = 8 := by simp [bytes64]

/-- Byte `k` of the number a byte sequence spells. -/
theorem leNat_byte (bs : List Byte) (k : Nat) (h : k < bs.length) : leNat bs / 256 ^ k % 256 = bs[k].toNat := by
  induction bs generalizing k with
  | nil => simp at h
  | cons b bs ih =>
    have hb := b.isLt
    cases k with
    | zero => simp only [leNat, Nat.pow_zero, Nat.div_one, List.getElem_cons_zero]; omega
    | succ k =>
      have hk : k < bs.length := by simpa using h
      simp only [leNat, List.getElem_cons_succ]
      rw [Nat.pow_succ, Nat.mul_comm (256 ^ k) 256, ← Nat.div_div_eq_div_mul, ← ih k hk]
      congr 2
      omega

/-- Bits `8k+7` to `8k` of a word read little-endian are its byte `k`. -/
theorem extractLsb'_le64 (bs : List Byte) (k : Nat) (hl : bs.length = 8) (h : k < 8) :
    (le64 bs).extractLsb' (8 * k) 8 = bs[k] := by
  have hlt := leNat_lt bs
  rw [hl] at hlt
  apply BitVec.eq_of_toNat_eq
  rw [le64, BitVec.extractLsb'_toNat, BitVec.toNat_ofNat, Nat.mod_eq_of_lt (show leNat bs < 2 ^ 64 by omega),
    Nat.shiftRight_eq_div_pow, Nat.pow_mul, ← leNat_byte bs k (by omega)]

/-- Byte `j` of the words of a list written little-endian one after the other. -/
theorem getElem?_flatMap_bytes64 (l : List Word) (j : Nat) (h : j < 8 * l.length) :
    (l.flatMap bytes64)[j]? = some (l[j / 8].extractLsb' (8 * (j % 8)) 8) := by
  induction l generalizing j with
  | nil => simp at h
  | cons w l ih =>
    simp only [List.flatMap_cons]
    by_cases hj : j < 8
    · rw [List.getElem?_append_left (by simpa using hj), List.getElem?_eq_getElem (by simpa using hj),
        getElem_bytes64 _ _ hj]
      have h0 : j / 8 = 0 := by omega
      simp [h0, Nat.mod_eq_of_lt hj]
    · rw [List.getElem?_append_right (by simpa using hj), length_bytes64, ih _ (by simp at h; omega)]
      have h1 : j / 8 = (j - 8) / 8 + 1 := by omega
      have h2 : (j - 8) % 8 = j % 8 := by omega
      simp [h1, h2]

end Sys2Proof.Machine
end

