-- ==== Sys2Proof/Laws/Memory.lean ====
section
/-! SUPPORT. Laws of the block buffer: what a read gives after each operation, and that every operation keeps the
canonical form. -/

namespace Sys2Proof.Machine

@[simp] theorem Memory.read_zeroed (a : Nat) : Memory.read Memory.zeroed a = 0 := rfl

@[simp] theorem Memory.wf_zeroed : Memory.wf Memory.zeroed = true := rfl

/-- The first entry of a canonical buffer, and the rest. -/
theorem Memory.wfFrom_cons {lo k : Nat} {v : Byte} {m : Memory} :
    Memory.wfFrom lo ((k, v) :: m) = true ↔ lo ≤ k ∧ k < 128 ∧ v ≠ 0 ∧ Memory.wfFrom (k + 1) m = true := by
  simp only [Memory.wfFrom, Bool.and_eq_true, decide_eq_true_eq, and_assoc]
  exact Iff.rfl

/-- Below the lower bound of a canonical buffer nothing is listed. -/
theorem Memory.read_below {lo : Nat} {m : Memory} (h : Memory.wfFrom lo m = true) {a : Nat} (ha : a < lo) :
    m.read a = 0 := by
  induction m generalizing lo with
  | nil => rfl
  | cons c m ih =>
    obtain ⟨k, v⟩ := c
    rw [Memory.wfFrom_cons] at h
    have hne : a ≠ k := by omega
    simp only [Memory.read, hne, if_false]
    exact ih h.2.2.2 (by omega)

/-- Nothing is listed at offset 128 or above. -/
theorem Memory.read_outside {lo : Nat} {m : Memory} (h : Memory.wfFrom lo m = true) {a : Nat} (ha : 128 ≤ a) :
    m.read a = 0 := by
  induction m generalizing lo with
  | nil => rfl
  | cons c m ih =>
    obtain ⟨k, v⟩ := c
    rw [Memory.wfFrom_cons] at h
    have hne : a ≠ k := by omega
    simp only [Memory.read, hne, if_false]
    exact ih h.2.2.2

theorem Memory.wfFrom_mono {lo lo' : Nat} {m : Memory} (h : Memory.wfFrom lo m = true) (hl : lo' ≤ lo) :
    Memory.wfFrom lo' m = true := by
  cases m with
  | nil => rfl
  | cons c m =>
    obtain ⟨k, v⟩ := c
    rw [Memory.wfFrom_cons] at h ⊢
    exact ⟨by omega, h.2⟩

theorem Memory.wfFrom_write {lo : Nat} {m : Memory} (h : Memory.wfFrom lo m = true) {a : Nat} (b : Byte)
    (hlo : lo ≤ a) (ha : a < 128) : Memory.wfFrom lo (m.write a b) = true := by
  induction m generalizing lo with
  | nil =>
    simp only [Memory.write]
    split
    · rfl
    · next hb =>
      rw [Memory.wfFrom_cons]
      exact ⟨hlo, ha, hb, rfl⟩
  | cons c m ih =>
    obtain ⟨k, v⟩ := c
    have h' := h
    rw [Memory.wfFrom_cons] at h
    obtain ⟨h1, h2, h3, h4⟩ := h
    simp only [Memory.write]
    by_cases hk : a < k
    · rw [if_pos hk]
      split
      · exact h'
      · next hb =>
        rw [Memory.wfFrom_cons, Memory.wfFrom_cons]
        exact ⟨hlo, ha, hb, hk, h2, h3, h4⟩
    · rw [if_neg hk]
      by_cases hak : a = k
      · subst hak
        rw [if_pos rfl]
        split
        · exact Memory.wfFrom_mono h4 (by omega)
        · next hb =>
          rw [Memory.wfFrom_cons]
          exact ⟨h1, h2, hb, h4⟩
      · rw [if_neg hak]
        rw [Memory.wfFrom_cons]
        exact ⟨h1, h2, h3, ih h4 (by omega)⟩

/-- A write keeps the canonical form. -/
theorem Memory.wf_write {m : Memory} (h : m.wf = true) {a : Nat} (b : Byte) (ha : a < 128) :
    (m.write a b).wf = true :=
  Memory.wfFrom_write h b (Nat.zero_le _) ha

theorem Memory.read_write_from {lo : Nat} {m : Memory} (h : Memory.wfFrom lo m = true) (a : Nat) (b : Byte) (x : Nat) :
    (m.write a b).read x = if x = a then b else m.read x := by
  induction m generalizing lo with
  | nil =>
    simp only [Memory.write]
    split
    · next hb => subst hb; simp [Memory.read]
    · simp [Memory.read]
  | cons c m ih =>
    obtain ⟨k, v⟩ := c
    have hw := h
    rw [Memory.wfFrom_cons] at h
    obtain ⟨h1, h2, h3, h4⟩ := h
    simp only [Memory.write]
    by_cases hk : a < k
    · rw [if_pos hk]
      split
      · next hb =>
        by_cases hx : x = a
        · subst hx; subst hb
          have hne : x ≠ k := by omega
          simp only [Memory.read, hne, if_false, if_true]
          exact Memory.read_below h4 (by omega)
        · rw [if_neg hx]
      · simp [Memory.read]
    · rw [if_neg hk]
      by_cases hak : a = k
      · subst hak
        rw [if_pos rfl]
        split
        · next hb =>
          by_cases hx : x = a
          · subst hx; subst hb
            rw [if_pos rfl]
            exact Memory.read_below h4 (by omega)
          · simp [Memory.read, hx]
        · by_cases hx : x = a <;> simp [Memory.read, hx]
      · rw [if_neg hak]
        simp only [Memory.read, ih h4]
        by_cases hx : x = k
        · subst hx
          have : x ≠ a := fun e => hak e.symm
          simp [this]
        · simp [hx]

/-- A read after a write: the byte written at its offset, what was there everywhere else. -/
theorem Memory.read_write {m : Memory} (h : m.wf = true) (a : Nat) (b : Byte) (x : Nat) :
    (m.write a b).read x = if x = a then b else m.read x :=
  Memory.read_write_from h a b x

/-- Consecutive writes inside the buffer keep the canonical form. -/
theorem Memory.wf_writeBytes {m : Memory} (h : m.wf = true) (a : Nat) (bs : List Byte) (ha : a + bs.length ≤ 128) :
    (m.writeBytes a bs).wf = true := by
  induction bs generalizing m a with
  | nil => exact h
  | cons b bs ih =>
    simp only [List.length_cons] at ha
    exact ih (Memory.wf_write h b (by omega)) (a + 1) (by omega)

/-- A read after consecutive writes. -/
theorem Memory.read_writeBytes {m : Memory} (h : m.wf = true) (a : Nat) (bs : List Byte) (ha : a + bs.length ≤ 128)
    (x : Nat) :
    (m.writeBytes a bs).read x = if a ≤ x ∧ x < a + bs.length then bs.getD (x - a) 0 else m.read x := by
  induction bs generalizing m a with
  | nil =>
    rw [if_neg (by simp)]
    rfl
  | cons b bs ih =>
    simp only [List.length_cons] at ha
    simp only [Memory.writeBytes]
    rw [ih (Memory.wf_write h b (by omega)) (a + 1) (by omega), Memory.read_write h]
    by_cases hx : x = a
    · subst hx
      have h1 : ¬(x + 1 ≤ x ∧ x < x + 1 + bs.length) := by omega
      have h2 : x ≤ x ∧ x < x + (b :: bs).length := by simp
      rw [if_neg h1, if_pos rfl, if_pos h2]
      simp
    · by_cases hr : a + 1 ≤ x ∧ x < a + 1 + bs.length
      · have h2 : a ≤ x ∧ x < a + (b :: bs).length := by simp; omega
        rw [if_pos hr, if_pos h2, show x - a = (x - (a + 1)) + 1 by omega]
        simp
      · have h2 : ¬(a ≤ x ∧ x < a + (b :: bs).length) := by simp; omega
        rw [if_neg hr, if_neg h2, if_neg hx]

/-- Consecutive writes, one byte more. -/
theorem Memory.writeBytes_append (m : Memory) (a : Nat) (bs cs : List Byte) :
    m.writeBytes a (bs ++ cs) = (m.writeBytes a bs).writeBytes (a + bs.length) cs := by
  induction bs generalizing m a with
  | nil => simp [Memory.writeBytes]
  | cons b bs ih =>
    simp only [List.cons_append, Memory.writeBytes, List.length_cons, ih]
    congr 1
    omega

/-- A read after the zero padding: what was below the fill, zero from there on. -/
@[simp] theorem Memory.read_zeroFrom (m : Memory) (a x : Nat) :
    (m.zeroFrom a).read x = if x < a then m.read x else 0 := by
  induction m with
  | nil => simp [Memory.zeroFrom, Memory.read, Memory.unlisted]
  | cons c m ih =>
    obtain ⟨k, v⟩ := c
    simp only [Memory.zeroFrom, List.filter_cons] at ih ⊢
    by_cases hk : k < a
    · simp only [hk, decide_true, if_true, Memory.read, ih]
      by_cases hx : x = k
      · subst hx; simp [hk]
      · simp [hx]
    · simp only [hk, decide_false, Bool.false_eq_true, if_false, ih, Memory.read]
      by_cases hx : x < a
      · have : x ≠ k := by omega
        simp [this]
      · simp [hx]

/-- The zero padding keeps the canonical form. -/
theorem Memory.wfFrom_zeroFrom {lo : Nat} {m : Memory} (h : Memory.wfFrom lo m = true) (a : Nat) :
    Memory.wfFrom lo (m.zeroFrom a) = true := by
  induction m generalizing lo with
  | nil => rfl
  | cons c m ih =>
    obtain ⟨k, v⟩ := c
    rw [Memory.wfFrom_cons] at h
    simp only [Memory.zeroFrom, List.filter_cons] at ih ⊢
    by_cases hk : k < a
    · simp only [hk, decide_true, if_true]
      rw [Memory.wfFrom_cons]
      exact ⟨h.1, h.2.1, h.2.2.1, ih h.2.2.2⟩
    · simp only [hk, decide_false, Bool.false_eq_true, if_false]
      exact Memory.wfFrom_mono (ih h.2.2.2) (by omega)

theorem Memory.wf_zeroFrom {m : Memory} (h : m.wf = true) (a : Nat) : (m.zeroFrom a).wf = true :=
  Memory.wfFrom_zeroFrom h a

/-- The canonical form: two canonical buffers that read alike are equal lists. -/
theorem Memory.eq_of_read_from {lo : Nat} {m m' : Memory} (h : Memory.wfFrom lo m = true)
    (h' : Memory.wfFrom lo m' = true) (hr : ∀ a, m.read a = m'.read a) : m = m' := by
  induction m generalizing lo m' with
  | nil =>
    cases m' with
    | nil => rfl
    | cons c m' =>
      obtain ⟨k, v⟩ := c
      rw [Memory.wfFrom_cons] at h'
      have := hr k
      simp only [Memory.read, if_true] at this
      exact absurd this.symm h'.2.2.1
  | cons c m ih =>
    obtain ⟨k, v⟩ := c
    have hk := hr k
    rw [Memory.wfFrom_cons] at h
    cases m' with
    | nil =>
      simp only [Memory.read, if_true] at hk
      exact absurd hk h.2.2.1
    | cons c' m' =>
      obtain ⟨k', v'⟩ := c'
      rw [Memory.wfFrom_cons] at h'
      have hk' := hr k'
      simp only [Memory.read, if_true] at hk hk'
      have heq : k = k' := by
        by_contra hne
        rw [if_neg hne] at hk
        rw [if_neg (fun e => hne e.symm)] at hk'
        rcases Nat.lt_or_gt_of_ne hne with hlt | hgt
        · exact h.2.2.1 (hk.trans (Memory.read_below h'.2.2.2 (by omega)))
        · exact h'.2.2.1 (hk'.symm.trans (Memory.read_below h.2.2.2 (by omega)))
      subst heq
      rw [if_pos rfl] at hk
      subst hk
      congr 1
      refine ih h.2.2.2 h'.2.2.2 fun a => ?_
      by_cases ha : a = k
      · subst ha
        rw [Memory.read_below h.2.2.2 (by omega), Memory.read_below h'.2.2.2 (by omega)]
      · have := hr a
        simpa only [Memory.read, ha, if_false] using this

/-- Equal buffers are equal data. -/
theorem Memory.eq_of_read {m m' : Memory} (h : m.wf = true) (h' : m'.wf = true) (hr : ∀ a, m.read a = m'.read a) :
    m = m' :=
  Memory.eq_of_read_from h h' hr

/-- A word read depends on its eight bytes only. -/
theorem Memory.readWord_congr {m m' : Memory} {a : Nat} (h : ∀ k, k < 8 → m.read (a + k) = m'.read (a + k)) :
    m.readWord a = m'.readWord a := by
  have h0 := h 0 (by omega)
  simp only [Memory.readWord, h 1, h 2, h 3, h 4, h 5, h 6, h 7, Nat.reduceLT]
  rw [Nat.add_zero] at h0
  rw [h0]

end Sys2Proof.Machine
end

