-- ==== Sys2Proof/Laws/State.lean ====
section
/-! SUPPORT. What every update of the state leaves in every field, one lemma per field per update, each true by `rfl`. -/

namespace Sys2Proof.Machine

variable (s : State)

@[simp] theorem State.respond_lc (data : List Byte) : (s.respond data).lc = s.lc := rfl
@[simp] theorem State.respond_h (data : List Byte) : (s.respond data).h = s.h := rfl
@[simp] theorem State.respond_t0 (data : List Byte) : (s.respond data).t0 = s.t0 := rfl
@[simp] theorem State.respond_t1 (data : List Byte) : (s.respond data).t1 = s.t1 := rfl
@[simp] theorem State.respond_f0 (data : List Byte) : (s.respond data).f0 = s.f0 := rfl
@[simp] theorem State.respond_f1 (data : List Byte) : (s.respond data).f1 = s.f1 := rfl
@[simp] theorem State.respond_buf (data : List Byte) : (s.respond data).buf = s.buf := rfl
@[simp] theorem State.respond_buf_len (data : List Byte) : (s.respond data).buf_len = s.buf_len := rfl
@[simp] theorem State.respond_p_dlen (data : List Byte) : (s.respond data).p_dlen = s.p_dlen := rfl
@[simp] theorem State.respond_p_klen (data : List Byte) : (s.respond data).p_klen = s.p_klen := rfl
@[simp] theorem State.respond_p_key (data : List Byte) : (s.respond data).p_key = s.p_key := rfl
@[simp] theorem State.respond_p_fanout (data : List Byte) : (s.respond data).p_fanout = s.p_fanout := rfl
@[simp] theorem State.respond_p_depth (data : List Byte) : (s.respond data).p_depth = s.p_depth := rfl
@[simp] theorem State.respond_p_leaf (data : List Byte) : (s.respond data).p_leaf = s.p_leaf := rfl
@[simp] theorem State.respond_p_inner (data : List Byte) : (s.respond data).p_inner = s.p_inner := rfl
@[simp] theorem State.respond_p_salt_en (data : List Byte) : (s.respond data).p_salt_en = s.p_salt_en := rfl
@[simp] theorem State.respond_p_salt (data : List Byte) : (s.respond data).p_salt = s.p_salt := rfl
@[simp] theorem State.respond_p_pers_en (data : List Byte) : (s.respond data).p_pers_en = s.p_pers_en := rfl
@[simp] theorem State.respond_p_pers (data : List Byte) : (s.respond data).p_pers = s.p_pers := rfl
@[simp] theorem State.respond_cmds (data : List Byte) : (s.respond data).cmds = s.cmds := rfl
@[simp] theorem State.respond_resp (data : List Byte) : (s.respond data).resp = some ⟨.ok, data⟩ := rfl

@[simp] theorem State.raise_lc (code : Status) : (s.raise code).lc = s.lc := rfl
@[simp] theorem State.raise_h (code : Status) : (s.raise code).h = s.h := rfl
@[simp] theorem State.raise_t0 (code : Status) : (s.raise code).t0 = s.t0 := rfl
@[simp] theorem State.raise_t1 (code : Status) : (s.raise code).t1 = s.t1 := rfl
@[simp] theorem State.raise_f0 (code : Status) : (s.raise code).f0 = s.f0 := rfl
@[simp] theorem State.raise_f1 (code : Status) : (s.raise code).f1 = s.f1 := rfl
@[simp] theorem State.raise_buf (code : Status) : (s.raise code).buf = s.buf := rfl
@[simp] theorem State.raise_buf_len (code : Status) : (s.raise code).buf_len = s.buf_len := rfl
@[simp] theorem State.raise_p_dlen (code : Status) : (s.raise code).p_dlen = s.p_dlen := rfl
@[simp] theorem State.raise_p_klen (code : Status) : (s.raise code).p_klen = s.p_klen := rfl
@[simp] theorem State.raise_p_key (code : Status) : (s.raise code).p_key = s.p_key := rfl
@[simp] theorem State.raise_p_fanout (code : Status) : (s.raise code).p_fanout = s.p_fanout := rfl
@[simp] theorem State.raise_p_depth (code : Status) : (s.raise code).p_depth = s.p_depth := rfl
@[simp] theorem State.raise_p_leaf (code : Status) : (s.raise code).p_leaf = s.p_leaf := rfl
@[simp] theorem State.raise_p_inner (code : Status) : (s.raise code).p_inner = s.p_inner := rfl
@[simp] theorem State.raise_p_salt_en (code : Status) : (s.raise code).p_salt_en = s.p_salt_en := rfl
@[simp] theorem State.raise_p_salt (code : Status) : (s.raise code).p_salt = s.p_salt := rfl
@[simp] theorem State.raise_p_pers_en (code : Status) : (s.raise code).p_pers_en = s.p_pers_en := rfl
@[simp] theorem State.raise_p_pers (code : Status) : (s.raise code).p_pers = s.p_pers := rfl
@[simp] theorem State.raise_cmds (code : Status) : (s.raise code).cmds = s.cmds := rfl
@[simp] theorem State.raise_resp (code : Status) : (s.raise code).resp = some ⟨code, []⟩ := rfl

@[simp] theorem State.wipe_lc : (s.wipe).lc = .uninitialized := rfl
@[simp] theorem State.wipe_h : (s.wipe).h = Vector.replicate 8 0 := rfl
@[simp] theorem State.wipe_t0 : (s.wipe).t0 = 0 := rfl
@[simp] theorem State.wipe_t1 : (s.wipe).t1 = 0 := rfl
@[simp] theorem State.wipe_f0 : (s.wipe).f0 = 0 := rfl
@[simp] theorem State.wipe_f1 : (s.wipe).f1 = 0 := rfl
@[simp] theorem State.wipe_buf : (s.wipe).buf = Memory.zeroed := rfl
@[simp] theorem State.wipe_buf_len : (s.wipe).buf_len = 0 := rfl
@[simp] theorem State.wipe_p_dlen : (s.wipe).p_dlen = s.p_dlen := rfl
@[simp] theorem State.wipe_p_klen : (s.wipe).p_klen = s.p_klen := rfl
@[simp] theorem State.wipe_p_key : (s.wipe).p_key = s.p_key := rfl
@[simp] theorem State.wipe_p_fanout : (s.wipe).p_fanout = s.p_fanout := rfl
@[simp] theorem State.wipe_p_depth : (s.wipe).p_depth = s.p_depth := rfl
@[simp] theorem State.wipe_p_leaf : (s.wipe).p_leaf = s.p_leaf := rfl
@[simp] theorem State.wipe_p_inner : (s.wipe).p_inner = s.p_inner := rfl
@[simp] theorem State.wipe_p_salt_en : (s.wipe).p_salt_en = s.p_salt_en := rfl
@[simp] theorem State.wipe_p_salt : (s.wipe).p_salt = s.p_salt := rfl
@[simp] theorem State.wipe_p_pers_en : (s.wipe).p_pers_en = s.p_pers_en := rfl
@[simp] theorem State.wipe_p_pers : (s.wipe).p_pers = s.p_pers := rfl
@[simp] theorem State.wipe_cmds : (s.wipe).cmds = s.cmds := rfl
@[simp] theorem State.wipe_resp : (s.wipe).resp = s.resp := rfl

@[simp] theorem State.setFinalFlags_lc (e : Bool) : (s.setFinalFlags e).lc = s.lc := rfl
@[simp] theorem State.setFinalFlags_h (e : Bool) : (s.setFinalFlags e).h = s.h := rfl
@[simp] theorem State.setFinalFlags_t0 (e : Bool) : (s.setFinalFlags e).t0 = s.t0 := rfl
@[simp] theorem State.setFinalFlags_t1 (e : Bool) : (s.setFinalFlags e).t1 = s.t1 := rfl
@[simp] theorem State.setFinalFlags_f0 (e : Bool) : (s.setFinalFlags e).f0 = ones64 := rfl
@[simp] theorem State.setFinalFlags_f1 (e : Bool) : (s.setFinalFlags e).f1 = layerFlag e := rfl
@[simp] theorem State.setFinalFlags_buf (e : Bool) : (s.setFinalFlags e).buf = s.buf := rfl
@[simp] theorem State.setFinalFlags_buf_len (e : Bool) : (s.setFinalFlags e).buf_len = s.buf_len := rfl
@[simp] theorem State.setFinalFlags_p_dlen (e : Bool) : (s.setFinalFlags e).p_dlen = s.p_dlen := rfl
@[simp] theorem State.setFinalFlags_p_klen (e : Bool) : (s.setFinalFlags e).p_klen = s.p_klen := rfl
@[simp] theorem State.setFinalFlags_p_key (e : Bool) : (s.setFinalFlags e).p_key = s.p_key := rfl
@[simp] theorem State.setFinalFlags_p_fanout (e : Bool) : (s.setFinalFlags e).p_fanout = s.p_fanout := rfl
@[simp] theorem State.setFinalFlags_p_depth (e : Bool) : (s.setFinalFlags e).p_depth = s.p_depth := rfl
@[simp] theorem State.setFinalFlags_p_leaf (e : Bool) : (s.setFinalFlags e).p_leaf = s.p_leaf := rfl
@[simp] theorem State.setFinalFlags_p_inner (e : Bool) : (s.setFinalFlags e).p_inner = s.p_inner := rfl
@[simp] theorem State.setFinalFlags_p_salt_en (e : Bool) : (s.setFinalFlags e).p_salt_en = s.p_salt_en := rfl
@[simp] theorem State.setFinalFlags_p_salt (e : Bool) : (s.setFinalFlags e).p_salt = s.p_salt := rfl
@[simp] theorem State.setFinalFlags_p_pers_en (e : Bool) : (s.setFinalFlags e).p_pers_en = s.p_pers_en := rfl
@[simp] theorem State.setFinalFlags_p_pers (e : Bool) : (s.setFinalFlags e).p_pers = s.p_pers := rfl
@[simp] theorem State.setFinalFlags_cmds (e : Bool) : (s.setFinalFlags e).cmds = s.cmds := rfl
@[simp] theorem State.setFinalFlags_resp (e : Bool) : (s.setFinalFlags e).resp = s.resp := rfl

@[simp] theorem State.ctrAdd_lc (n : Nat) : (s.ctrAdd n).lc = s.lc := rfl
@[simp] theorem State.ctrAdd_h (n : Nat) : (s.ctrAdd n).h = s.h := rfl
@[simp] theorem State.ctrAdd_t0 (n : Nat) : (s.ctrAdd n).t0 = s.t0 + BitVec.ofNat 64 n := rfl
@[simp] theorem State.ctrAdd_t1 (n : Nat) :
    (s.ctrAdd n).t1 = s.t1 + (if (s.t0 + BitVec.ofNat 64 n).toNat < n then 1 else 0) := rfl
@[simp] theorem State.ctrAdd_f0 (n : Nat) : (s.ctrAdd n).f0 = s.f0 := rfl
@[simp] theorem State.ctrAdd_f1 (n : Nat) : (s.ctrAdd n).f1 = s.f1 := rfl
@[simp] theorem State.ctrAdd_buf (n : Nat) : (s.ctrAdd n).buf = s.buf := rfl
@[simp] theorem State.ctrAdd_buf_len (n : Nat) : (s.ctrAdd n).buf_len = s.buf_len := rfl
@[simp] theorem State.ctrAdd_p_dlen (n : Nat) : (s.ctrAdd n).p_dlen = s.p_dlen := rfl
@[simp] theorem State.ctrAdd_p_klen (n : Nat) : (s.ctrAdd n).p_klen = s.p_klen := rfl
@[simp] theorem State.ctrAdd_p_key (n : Nat) : (s.ctrAdd n).p_key = s.p_key := rfl
@[simp] theorem State.ctrAdd_p_fanout (n : Nat) : (s.ctrAdd n).p_fanout = s.p_fanout := rfl
@[simp] theorem State.ctrAdd_p_depth (n : Nat) : (s.ctrAdd n).p_depth = s.p_depth := rfl
@[simp] theorem State.ctrAdd_p_leaf (n : Nat) : (s.ctrAdd n).p_leaf = s.p_leaf := rfl
@[simp] theorem State.ctrAdd_p_inner (n : Nat) : (s.ctrAdd n).p_inner = s.p_inner := rfl
@[simp] theorem State.ctrAdd_p_salt_en (n : Nat) : (s.ctrAdd n).p_salt_en = s.p_salt_en := rfl
@[simp] theorem State.ctrAdd_p_salt (n : Nat) : (s.ctrAdd n).p_salt = s.p_salt := rfl
@[simp] theorem State.ctrAdd_p_pers_en (n : Nat) : (s.ctrAdd n).p_pers_en = s.p_pers_en := rfl
@[simp] theorem State.ctrAdd_p_pers (n : Nat) : (s.ctrAdd n).p_pers = s.p_pers := rfl
@[simp] theorem State.ctrAdd_cmds (n : Nat) : (s.ctrAdd n).cmds = s.cmds := rfl
@[simp] theorem State.ctrAdd_resp (n : Nat) : (s.ctrAdd n).resp = s.resp := rfl

@[simp] theorem State.doInit_lc : (s.doInit).lc = .initialized := rfl
@[simp] theorem State.doInit_h : (s.doInit).h = seed s := rfl
@[simp] theorem State.doInit_t0 : (s.doInit).t0 = 0 := rfl
@[simp] theorem State.doInit_t1 : (s.doInit).t1 = 0 := rfl
@[simp] theorem State.doInit_f0 : (s.doInit).f0 = 0 := rfl
@[simp] theorem State.doInit_f1 : (s.doInit).f1 = 0 := rfl
@[simp] theorem State.doInit_buf : (s.doInit).buf = Memory.zeroed.writeBytes 0 (keyBytes s) := rfl
@[simp] theorem State.doInit_buf_len : (s.doInit).buf_len = keyFill s.p_klen := rfl
@[simp] theorem State.doInit_p_dlen : (s.doInit).p_dlen = s.p_dlen := rfl
@[simp] theorem State.doInit_p_klen : (s.doInit).p_klen = s.p_klen := rfl
@[simp] theorem State.doInit_p_key : (s.doInit).p_key = s.p_key := rfl
@[simp] theorem State.doInit_p_fanout : (s.doInit).p_fanout = s.p_fanout := rfl
@[simp] theorem State.doInit_p_depth : (s.doInit).p_depth = s.p_depth := rfl
@[simp] theorem State.doInit_p_leaf : (s.doInit).p_leaf = s.p_leaf := rfl
@[simp] theorem State.doInit_p_inner : (s.doInit).p_inner = s.p_inner := rfl
@[simp] theorem State.doInit_p_salt_en : (s.doInit).p_salt_en = s.p_salt_en := rfl
@[simp] theorem State.doInit_p_salt : (s.doInit).p_salt = s.p_salt := rfl
@[simp] theorem State.doInit_p_pers_en : (s.doInit).p_pers_en = s.p_pers_en := rfl
@[simp] theorem State.doInit_p_pers : (s.doInit).p_pers = s.p_pers := rfl
@[simp] theorem State.doInit_cmds : (s.doInit).cmds = s.cmds := rfl
@[simp] theorem State.doInit_resp : (s.doInit).resp = s.resp := rfl

@[simp] theorem State.flushBlock_lc : (s.flushBlock).lc = s.lc := rfl
@[simp] theorem State.flushBlock_h :
    (s.flushBlock).h = compress s.h s.buf (s.ctrAdd Config.block).t0 (s.ctrAdd Config.block).t1 0 0 := rfl
@[simp] theorem State.flushBlock_t0 : (s.flushBlock).t0 = (s.ctrAdd Config.block).t0 := rfl
@[simp] theorem State.flushBlock_t1 : (s.flushBlock).t1 = (s.ctrAdd Config.block).t1 := rfl
@[simp] theorem State.flushBlock_f0 : (s.flushBlock).f0 = s.f0 := rfl
@[simp] theorem State.flushBlock_f1 : (s.flushBlock).f1 = s.f1 := rfl
@[simp] theorem State.flushBlock_buf : (s.flushBlock).buf = Memory.zeroed := rfl
@[simp] theorem State.flushBlock_buf_len : (s.flushBlock).buf_len = 0 := rfl
@[simp] theorem State.flushBlock_p_dlen : (s.flushBlock).p_dlen = s.p_dlen := rfl
@[simp] theorem State.flushBlock_p_klen : (s.flushBlock).p_klen = s.p_klen := rfl
@[simp] theorem State.flushBlock_p_key : (s.flushBlock).p_key = s.p_key := rfl
@[simp] theorem State.flushBlock_p_fanout : (s.flushBlock).p_fanout = s.p_fanout := rfl
@[simp] theorem State.flushBlock_p_depth : (s.flushBlock).p_depth = s.p_depth := rfl
@[simp] theorem State.flushBlock_p_leaf : (s.flushBlock).p_leaf = s.p_leaf := rfl
@[simp] theorem State.flushBlock_p_inner : (s.flushBlock).p_inner = s.p_inner := rfl
@[simp] theorem State.flushBlock_p_salt_en : (s.flushBlock).p_salt_en = s.p_salt_en := rfl
@[simp] theorem State.flushBlock_p_salt : (s.flushBlock).p_salt = s.p_salt := rfl
@[simp] theorem State.flushBlock_p_pers_en : (s.flushBlock).p_pers_en = s.p_pers_en := rfl
@[simp] theorem State.flushBlock_p_pers : (s.flushBlock).p_pers = s.p_pers := rfl
@[simp] theorem State.flushBlock_cmds : (s.flushBlock).cmds = s.cmds := rfl
@[simp] theorem State.flushBlock_resp : (s.flushBlock).resp = s.resp := rfl

@[simp] theorem State.finalize_lc (e : Bool) : (s.finalize e).lc = .closed := rfl
@[simp] theorem State.finalize_h (e : Bool) :
    (s.finalize e).h =
      compress s.h (s.buf.zeroFrom s.buf_len.toNat) (s.ctrAdd s.buf_len.toNat).t0 (s.ctrAdd s.buf_len.toNat).t1 ones64
        (layerFlag e) := rfl
@[simp] theorem State.finalize_t0 (e : Bool) : (s.finalize e).t0 = (s.ctrAdd s.buf_len.toNat).t0 := rfl
@[simp] theorem State.finalize_t1 (e : Bool) : (s.finalize e).t1 = (s.ctrAdd s.buf_len.toNat).t1 := rfl
@[simp] theorem State.finalize_f0 (e : Bool) : (s.finalize e).f0 = ones64 := rfl
@[simp] theorem State.finalize_f1 (e : Bool) : (s.finalize e).f1 = layerFlag e := rfl
@[simp] theorem State.finalize_buf (e : Bool) : (s.finalize e).buf = s.buf.zeroFrom s.buf_len.toNat := rfl
@[simp] theorem State.finalize_buf_len (e : Bool) : (s.finalize e).buf_len = s.buf_len := rfl
@[simp] theorem State.finalize_p_dlen (e : Bool) : (s.finalize e).p_dlen = s.p_dlen := rfl
@[simp] theorem State.finalize_p_klen (e : Bool) : (s.finalize e).p_klen = s.p_klen := rfl
@[simp] theorem State.finalize_p_key (e : Bool) : (s.finalize e).p_key = s.p_key := rfl
@[simp] theorem State.finalize_p_fanout (e : Bool) : (s.finalize e).p_fanout = s.p_fanout := rfl
@[simp] theorem State.finalize_p_depth (e : Bool) : (s.finalize e).p_depth = s.p_depth := rfl
@[simp] theorem State.finalize_p_leaf (e : Bool) : (s.finalize e).p_leaf = s.p_leaf := rfl
@[simp] theorem State.finalize_p_inner (e : Bool) : (s.finalize e).p_inner = s.p_inner := rfl
@[simp] theorem State.finalize_p_salt_en (e : Bool) : (s.finalize e).p_salt_en = s.p_salt_en := rfl
@[simp] theorem State.finalize_p_salt (e : Bool) : (s.finalize e).p_salt = s.p_salt := rfl
@[simp] theorem State.finalize_p_pers_en (e : Bool) : (s.finalize e).p_pers_en = s.p_pers_en := rfl
@[simp] theorem State.finalize_p_pers (e : Bool) : (s.finalize e).p_pers = s.p_pers := rfl
@[simp] theorem State.finalize_cmds (e : Bool) : (s.finalize e).cmds = s.cmds := rfl
@[simp] theorem State.finalize_resp (e : Bool) : (s.finalize e).resp = s.resp := rfl

@[simp] theorem State.pushByte_lc (b : Byte) : (s.pushByte b).lc = s.lc := rfl
@[simp] theorem State.pushByte_h (b : Byte) : (s.pushByte b).h = s.h := rfl
@[simp] theorem State.pushByte_t0 (b : Byte) : (s.pushByte b).t0 = s.t0 := rfl
@[simp] theorem State.pushByte_t1 (b : Byte) : (s.pushByte b).t1 = s.t1 := rfl
@[simp] theorem State.pushByte_f0 (b : Byte) : (s.pushByte b).f0 = s.f0 := rfl
@[simp] theorem State.pushByte_f1 (b : Byte) : (s.pushByte b).f1 = s.f1 := rfl
@[simp] theorem State.pushByte_buf (b : Byte) : (s.pushByte b).buf = s.buf.write s.buf_len.toNat b := rfl
@[simp] theorem State.pushByte_buf_len (b : Byte) : (s.pushByte b).buf_len = s.buf_len + 1 := rfl
@[simp] theorem State.pushByte_p_dlen (b : Byte) : (s.pushByte b).p_dlen = s.p_dlen := rfl
@[simp] theorem State.pushByte_p_klen (b : Byte) : (s.pushByte b).p_klen = s.p_klen := rfl
@[simp] theorem State.pushByte_p_key (b : Byte) : (s.pushByte b).p_key = s.p_key := rfl
@[simp] theorem State.pushByte_p_fanout (b : Byte) : (s.pushByte b).p_fanout = s.p_fanout := rfl
@[simp] theorem State.pushByte_p_depth (b : Byte) : (s.pushByte b).p_depth = s.p_depth := rfl
@[simp] theorem State.pushByte_p_leaf (b : Byte) : (s.pushByte b).p_leaf = s.p_leaf := rfl
@[simp] theorem State.pushByte_p_inner (b : Byte) : (s.pushByte b).p_inner = s.p_inner := rfl
@[simp] theorem State.pushByte_p_salt_en (b : Byte) : (s.pushByte b).p_salt_en = s.p_salt_en := rfl
@[simp] theorem State.pushByte_p_salt (b : Byte) : (s.pushByte b).p_salt = s.p_salt := rfl
@[simp] theorem State.pushByte_p_pers_en (b : Byte) : (s.pushByte b).p_pers_en = s.p_pers_en := rfl
@[simp] theorem State.pushByte_p_pers (b : Byte) : (s.pushByte b).p_pers = s.p_pers := rfl
@[simp] theorem State.pushByte_cmds (b : Byte) : (s.pushByte b).cmds = s.cmds := rfl
@[simp] theorem State.pushByte_resp (b : Byte) : (s.pushByte b).resp = s.resp := rfl

end Sys2Proof.Machine
end

