-- ==== Sys2Proof/Laws/Commands.lean ====
section
/-! SUPPORT. What each shared operation can do, said once: the length check, the common behaviour of `SETP`, the checks
before hashing, one absorbed byte. -/

namespace Sys2Proof.Machine

/-! ### The length check and the error entry -/

theorem withLength_agrees {n : Nat} {p : List Byte} (h : p.length = n) (s : State) (body : Result) :
    withLength n p s body = body := if_pos h

theorem withLength_differs {n : Nat} {p : List Byte} (h : p.length ≠ n) (s : State) (body : Result) :
    withLength n p s body = .next (s.raise .useLength) := if_neg h

theorem raise_eq_failed (s : State) (code : Status) : s.raise code = failed s code := rfl

/-- The length check either answers `USE_LENGTH` or goes on. -/
theorem withLength_next {n : Nat} {p : List Byte} {s t : State} {body : Result} (h : withLength n p s body = .next t) :
    (p.length ≠ n ∧ t = s.raise .useLength) ∨ (p.length = n ∧ body = .next t) := by
  unfold withLength at h
  split at h
  · next hl => exact .inr ⟨hl, h⟩
  · next hl => exact .inl ⟨hl, by simpa using h.symm⟩

/-- A `SETP` command answers one of its three ways: the length error, the value error, or the write and the wipe. -/
theorem setParam_next {n : Nat} {p : List Byte} {inv : Option Status} {w s t : State}
    (h : setParam n p inv w s = .next t) :
    (p.length ≠ n ∧ t = s.raise .useLength) ∨ (p.length = n ∧ ∃ code, inv = some code ∧ t = s.raise code) ∨
      (p.length = n ∧ inv = none ∧ t = w.wipe.respond []) := by
  obtain h | ⟨hl, h⟩ := withLength_next h
  · exact .inl h
  · cases inv with
    | none => exact .inr (.inr ⟨hl, rfl, by simpa using h.symm⟩)
    | some code => exact .inr (.inl ⟨hl, code, rfl, by simpa using h.symm⟩)

/-- A `SETP` command always answers. -/
theorem setParam_answers (n : Nat) (p : List Byte) (inv : Option Status) (w s : State) :
    ∃ t, setParam n p inv w s = .next t := by
  unfold setParam withLength
  split
  · cases inv <;> exact ⟨_, rfl⟩
  · exact ⟨_, rfl⟩

theorem setParam_stores {n : Nat} {p : List Byte} {inv : Option Status} (hl : p.length = n) (hi : inv = none)
    (w s : State) : setParam n p inv w s = .next (w.wipe.respond []) := by
  subst hi
  simp [setParam, withLength, hl]

theorem setParam_illegal {n : Nat} {p : List Byte} {inv : Option Status} {code : Status} (hl : p.length = n)
    (hi : inv = some code) (w s : State) : setParam n p inv w s = .next (failed s code) := by
  subst hi
  simp [setParam, withLength, hl, raise_eq_failed]

theorem setParam_wrongLength {n : Nat} {p : List Byte} (hl : p.length ≠ n) (inv : Option Status) (w s : State) :
    setParam n p inv w s = .next (failed s .useLength) :=
  withLength_differs hl s _

/-! ### The eight `SETP` commands as instances of the common behaviour -/

theorem exec_setpDlen (p : List Byte) (s : State) :
    exec (.setpDlen p) s = setParam 1 p (dlenError (scalarOperand p)) { s with p_dlen := scalarOperand p } s := rfl

theorem exec_setpKey (len : BitVec 16) (p : List Byte) (s : State) :
    exec (.setpKey len p) s = setParam len.toNat p (klenError len.toNat)
      { s with p_klen := len.setWidth 7, p_key := bytesOperand 64 p } s := rfl

theorem exec_setpSalt (len : BitVec 16) (p : List Byte) (s : State) :
    exec (.setpSalt len p) s = setParam len.toNat p (saltError len.toNat)
      { s with p_salt_en := decide (len ≠ 0), p_salt := bytesOperand 16 p } s := rfl

theorem exec_setpPers (len : BitVec 16) (p : List Byte) (s : State) :
    exec (.setpPers len p) s = setParam len.toNat p (persError len.toNat)
      { s with p_pers_en := decide (len ≠ 0), p_pers := bytesOperand 16 p } s := rfl

theorem exec_setpFanout (p : List Byte) (s : State) :
    exec (.setpFanout p) s = setParam 1 p none { s with p_fanout := scalarOperand p } s := rfl

theorem exec_setpDepth (p : List Byte) (s : State) :
    exec (.setpDepth p) s = setParam 1 p none { s with p_depth := scalarOperand p } s := rfl

theorem exec_setpLeaf (p : List Byte) (s : State) :
    exec (.setpLeaf p) s = setParam 4 p none { s with p_leaf := leafOperand p } s := rfl

theorem exec_setpInner (p : List Byte) (s : State) :
    exec (.setpInner p) s = setParam 1 p (innerError (scalarOperand p)) { s with p_inner := scalarOperand p } s := rfl

/-- What a wipe leaves (10_state.md R40). -/
theorem wiped_wipe_respond (w : State) : Wiped (w.wipe.respond []) where
  lc := rfl
  h := fun i => by simp
  t0 := rfl
  t1 := rfl
  f0 := rfl
  f1 := rfl
  buf := fun _ => rfl
  buf_len := rfl

/-- A wipe keeps the parameter registers (40_config_encoder.md R101). -/
theorem sameParams_wipe_respond (w : State) : SameParams w (w.wipe.respond []) :=
  ⟨rfl, rfl, rfl, rfl, rfl, rfl, rfl, rfl, rfl, rfl, rfl⟩

theorem SameParams.refl (s : State) : SameParams s s := ⟨rfl, rfl, rfl, rfl, rfl, rfl, rfl, rfl, rfl, rfl, rfl⟩

theorem SameParams.trans {r s t : State} (h : SameParams r s) (g : SameParams s t) : SameParams r t where
  dlen := g.dlen.trans h.dlen
  klen := g.klen.trans h.klen
  key := g.key.trans h.key
  fanout := g.fanout.trans h.fanout
  depth := g.depth.trans h.depth
  leaf := g.leaf.trans h.leaf
  inner := g.inner.trans h.inner
  salt_en := g.salt_en.trans h.salt_en
  salt := g.salt.trans h.salt
  pers_en := g.pers_en.trans h.pers_en
  pers := g.pers.trans h.pers

/-! ### Validation and initialization -/

/-- `VALID` passes exactly on legal parameters. -/
theorem firstInvalid_eq_none {s : State} : firstInvalid s = none ↔ s.Valid := by
  unfold firstInvalid dlenError klenError innerError
  constructor
  · intro h
    split_ifs at h with h1 h2 h3
    · exact ⟨h1.1, h1.2, h2, h3⟩
    all_goals exact absurd h (by decide)
  · rintro ⟨h1, h2, h3, h4⟩
    rw [if_pos ⟨h1, h2⟩, if_pos h3, if_pos h4]
    rfl

/-- What `ABSORB` and `FINAL` do first, by lifecycle state. -/
theorem openHash_closed {s : State} (h : s.lc = .closed) : openHash s = .error .useClosed := by
  simp [openHash, h]

theorem openHash_initialized {s : State} (h : s.lc = .initialized) : openHash s = .ok s := by
  simp [openHash, h]

theorem openHash_uninitialized {s : State} (h : s.lc = .uninitialized) :
    openHash s = match firstInvalid s with | some code => .error code | none => .ok s.doInit := by
  cases hf : firstInvalid s <;> simp [openHash, h, hf]

/-- A core that is opened is the core itself, already initialized, or the core just initialized with legal
parameters. -/
theorem openHash_ok {s o : State} (h : openHash s = .ok o) :
    (s.lc = .initialized ∧ o = s) ∨ (s.lc = .uninitialized ∧ s.Valid ∧ o = s.doInit) := by
  cases hl : s.lc with
  | closed => simp [openHash_closed hl] at h
  | initialized =>
    rw [openHash_initialized hl] at h
    exact .inl ⟨rfl, (Except.ok.inj h).symm⟩
  | uninitialized =>
    rw [openHash_uninitialized hl] at h
    cases hv : firstInvalid s with
    | some code => simp [hv] at h
    | none =>
      rw [hv] at h
      exact .inr ⟨rfl, firstInvalid_eq_none.1 hv, (Except.ok.inj h).symm⟩

/-! ### Absorbing -/

theorem pushByte_fill {s : State} (b : Byte) (h : s.buf_len.toNat ≤ 127) :
    (s.pushByte b).buf_len.toNat = s.buf_len.toNat + 1 := by
  simp only [State.pushByte_buf_len, BitVec.toNat_add, BitVec.reduceToNat]
  omega

/-- One absorbed byte, the buffer not becoming full. -/
theorem absorbByte_short {s : State} (b : Byte) (h : s.buf_len.toNat < 127) :
    absorbByte b s = .ok (s.pushByte b) := by
  unfold absorbByte absorbOffset
  rw [if_pos (show s.buf_len.toNat < 128 by omega)]
  simp only [pushByte_fill b (Nat.le_of_lt h)]
  rw [if_neg (by simp only [Config.block]; omega)]

/-- One absorbed byte that fills the buffer: the block is compressed at once. -/
theorem absorbByte_full {s : State} (b : Byte) (h : s.buf_len.toNat = 127) :
    absorbByte b s = .ok (s.pushByte b).flushBlock := by
  unfold absorbByte absorbOffset
  rw [if_pos (show s.buf_len.toNat < 128 by omega)]
  simp only [pushByte_fill b (Nat.le_of_eq h)]
  rw [if_pos (by simp only [Config.block]; omega)]

/-- One absorbed byte, the offset outside the buffer (log 5). -/
theorem absorbByte_outside {s : State} (b : Byte) (h : 128 ≤ s.buf_len.toNat) :
    absorbByte b s = .error (.bufferOffset s.buf_len.toNat) := by
  unfold absorbByte absorbOffset
  rw [if_neg (by simp; omega)]

/-- The three ways one byte can go. -/
theorem absorbByte_cases (b : Byte) (s : State) :
    (s.buf_len.toNat < 127 ∧
      absorbByte b s = .ok (s.pushByte b)) ∨
    (s.buf_len.toNat = 127 ∧ absorbByte b s =
      .ok (s.pushByte b).flushBlock) ∨
    (128 ≤ s.buf_len.toNat ∧ absorbByte b s = .error (.bufferOffset s.buf_len.toNat)) := by
  rcases Nat.lt_trichotomy s.buf_len.toNat 127 with h | h | h
  · exact .inl ⟨h, absorbByte_short b h⟩
  · exact .inr (.inl ⟨h, absorbByte_full b h⟩)
  · exact .inr (.inr ⟨h, absorbByte_outside b h⟩)

/-- Absorbing byte by byte: a split of the bytes does not matter. -/
theorem absorbBytes_append (bs cs : List Byte) (s : State) :
    absorbBytes (bs ++ cs) s =
      match absorbBytes bs s with
      | .ok t => absorbBytes cs t
      | .error f => .error f := by
  induction bs generalizing s with
  | nil => rfl
  | cons b bs ih =>
    simp only [List.cons_append, absorbBytes]
    cases absorbByte b s with
    | error f => rfl
    | ok t => exact ih t

/-- What every absorbed byte leaves alone. -/
structure AbsorbFrame (s t : State) : Prop where
  lc : t.lc = s.lc
  f0 : t.f0 = s.f0
  f1 : t.f1 = s.f1
  params : SameParams s t
  cmds : t.cmds = s.cmds
  resp : t.resp = s.resp

theorem absorbByte_frame {b : Byte} {s t : State} (h : absorbByte b s = .ok t) : AbsorbFrame s t := by
  obtain ⟨_, e⟩ | ⟨_, e⟩ | ⟨_, e⟩ := absorbByte_cases b s <;> rw [e] at h
  · cases h
    exact ⟨rfl, rfl, rfl, ⟨rfl, rfl, rfl, rfl, rfl, rfl, rfl, rfl, rfl, rfl, rfl⟩, rfl, rfl⟩
  · cases h
    exact ⟨rfl, rfl, rfl, ⟨rfl, rfl, rfl, rfl, rfl, rfl, rfl, rfl, rfl, rfl, rfl⟩, rfl, rfl⟩
  · cases h

theorem absorbBytes_frame {bs : List Byte} {s t : State} (h : absorbBytes bs s = .ok t) : AbsorbFrame s t := by
  induction bs generalizing s with
  | nil =>
    cases h
    exact ⟨rfl, rfl, rfl, SameParams.refl _, rfl, rfl⟩
  | cons b bs ih =>
    simp only [absorbBytes] at h
    cases hb : absorbByte b s with
    | error f => simp [hb] at h
    | ok u =>
      rw [hb] at h
      have f1 := absorbByte_frame hb
      have f2 := ih h
      exact ⟨f2.lc.trans f1.lc, f2.f0.trans f1.f0, f2.f1.trans f1.f1, f1.params.trans f2.params,
        f2.cmds.trans f1.cmds, f2.resp.trans f1.resp⟩

/-- A fill below 128 stays below 128, and no byte faults. -/
theorem absorbBytes_ok (bs : List Byte) {s : State} (h : s.buf_len.toNat ≤ 127) :
    ∃ t, absorbBytes bs s = .ok t ∧ t.buf_len.toNat = (s.buf_len.toNat + bs.length) % 128 := by
  induction bs generalizing s with
  | nil => exact ⟨s, rfl, by simp; omega⟩
  | cons b bs ih =>
    simp only [absorbBytes, List.length_cons]
    obtain ⟨h1, e⟩ | ⟨h1, e⟩ | ⟨h1, e⟩ := absorbByte_cases b s
    · have h2 := pushByte_fill b h
      rw [e]
      obtain ⟨t, ht, hl⟩ := ih (s := s.pushByte b) (by omega)
      refine ⟨t, ht, ?_⟩
      rw [hl, h2]
      omega
    · rw [e]
      obtain ⟨t, ht, hl⟩ := ih (s := (s.pushByte b).flushBlock) (by simp)
      refine ⟨t, ht, ?_⟩
      rw [hl]
      simp
      omega
    · omega

end Sys2Proof.Machine
end

