-- ==== Sys2Proof/Laws/Response.lean ====
section
/-! SUPPORT. No command reads the response port: the response before a command makes no difference to what it does. The
bytes of a payload are absorbed without a look at the command port. -/

namespace Sys2Proof.Machine

theorem absorbBytes_resp (bs : List Byte) (s : State) (q : Option Response) :
    absorbBytes bs { s with resp := q } =
      match absorbBytes bs s with
      | .ok t => .ok { t with resp := q }
      | .error f => .error f := by
  induction bs generalizing s with
  | nil => rfl
  | cons b bs ih =>
    simp only [absorbBytes]
    obtain ⟨h, e⟩ | ⟨h, e⟩ | ⟨h, e⟩ := absorbByte_cases b s <;> rw [e]
    · rw [absorbByte_short (s := { s with resp := q }) b h]
      exact ih (s.pushByte b)
    · rw [absorbByte_full (s := { s with resp := q }) b h]
      exact ih (s.pushByte b).flushBlock
    · rw [absorbByte_outside (s := { s with resp := q }) b h]

theorem absorbBytes_cmds (bs : List Byte) (s : State) (q : List Command) :
    absorbBytes bs { s with cmds := q } =
      match absorbBytes bs s with
      | .ok t => .ok { t with cmds := q }
      | .error f => .error f := by
  induction bs generalizing s with
  | nil => rfl
  | cons b bs ih =>
    simp only [absorbBytes]
    obtain ⟨h, e⟩ | ⟨h, e⟩ | ⟨h, e⟩ := absorbByte_cases b s <;> rw [e]
    · rw [absorbByte_short (s := { s with cmds := q }) b h]
      exact ih (s.pushByte b)
    · rw [absorbByte_full (s := { s with cmds := q }) b h]
      exact ih (s.pushByte b).flushBlock
    · rw [absorbByte_outside (s := { s with cmds := q }) b h]

theorem openHash_resp (s : State) (q : Option Response) :
    openHash { s with resp := q } =
      match openHash s with
      | .ok o => .ok { o with resp := q }
      | .error code => .error code := by
  have hv : firstInvalid { s with resp := q } = firstInvalid s := rfl
  have hl : s.lc = .closed ∨ s.lc = .initialized ∨ s.lc = .uninitialized := by cases s.lc <;> simp
  obtain hl | hl | hl := hl
  · rw [openHash_closed hl, openHash_closed (s := { s with resp := q }) hl]
  · rw [openHash_initialized hl, openHash_initialized (s := { s with resp := q }) hl]
  · rw [openHash_uninitialized hl, openHash_uninitialized (s := { s with resp := q }) hl, hv]
    cases firstInvalid s <;> rfl

theorem setParam_resp (n : Nat) (p : List Byte) (inv : Option Status) (w s : State) (q : Option Response) :
    setParam n p inv { w with resp := q } { s with resp := q } = setParam n p inv w s := by
  unfold setParam withLength
  split
  · cases inv <;> rfl
  · rfl

/-- Every command does the same whatever the response before it was. -/
theorem exec_resp (i : Instr) (s : State) (q : Option Response) : exec i { s with resp := q } = exec i s := by
  cases i with
  | absorb len d =>
    simp only [exec, execAbsorb, withLength]
    split
    · rw [openHash_resp]
      cases openHash s with
      | error code => rfl
      | ok o =>
        simp only [absorbBytes_resp]
        cases absorbBytes d o <;> rfl
    · rfl
  | final e p =>
    simp only [exec, execFinal, withLength]
    split
    · rw [openHash_resp]
      cases openHash s <;> rfl
    · rfl
  | init p =>
    have hv : firstInvalid { s with resp := q } = firstInvalid s := rfl
    simp only [exec, execInit, withLength, hv]
    cases firstInvalid s <;> rfl
  | dlen p => rfl
  | setpDlen p => exact setParam_resp 1 p _ { s with p_dlen := scalarOperand p } s q
  | setpKey len p =>
    exact setParam_resp len.toNat p _ { s with p_klen := len.setWidth 7, p_key := bytesOperand 64 p } s q
  | setpSalt len p =>
    exact setParam_resp len.toNat p _ { s with p_salt_en := decide (len ≠ 0), p_salt := bytesOperand 16 p } s q
  | setpPers len p =>
    exact setParam_resp len.toNat p _ { s with p_pers_en := decide (len ≠ 0), p_pers := bytesOperand 16 p } s q
  | setpFanout p => exact setParam_resp 1 p none { s with p_fanout := scalarOperand p } s q
  | setpDepth p => exact setParam_resp 1 p none { s with p_depth := scalarOperand p } s q
  | setpLeaf p => exact setParam_resp 4 p none { s with p_leaf := leafOperand p } s q
  | setpInner p => exact setParam_resp 1 p _ { s with p_inner := scalarOperand p } s q

end Sys2Proof.Machine
end

