-- ==== Sys2Proof/Laws/Hash.lean ====
section
/-! SUPPORT. `INIT`, `ABSORB` and `FINAL` said once by what opening the core answers; the compression reads its block
through 128 bytes; the counter as a number. -/

namespace Sys2Proof.Machine

/-! ### The three commands by what opening answers -/

theorem exec_respond (i : Instr) (s : State) (data : List Byte) : exec i (s.respond data) = exec i s :=
  exec_resp i s _

theorem exec_failed (i : Instr) (s : State) (code : Status) : exec i (failed s code) = exec i s := exec_resp i s _

theorem exec_init_valid {s : State} (h : s.Valid) : exec (.init []) s = .next (s.doInit.respond []) := by
  simp only [exec, execInit, withLength, List.length_nil, if_true, firstInvalid_eq_none.2 h]

theorem exec_init_invalid {p : List Byte} {s : State} {code : Status} (hl : p.length = 0)
    (h : firstInvalid s = some code) : exec (.init p) s = .next (failed s code) := by
  simp only [exec, execInit, withLength, hl, if_true, h, raise_eq_failed]

theorem exec_absorb_opened {len : BitVec 16} {d : List Byte} {s o : State} (hl : d.length = len.toNat)
    (h : openHash s = .ok o) :
    exec (.absorb len d) s =
      match absorbBytes d o with
      | .ok t => .next (t.respond [])
      | .error f => .fault f := by
  cases ha : absorbBytes d o <;> simp only [exec, execAbsorb, withLength, hl, if_true, h, ha]

theorem exec_absorb_unopened {len : BitVec 16} {d : List Byte} {s : State} {code : Status}
    (hl : d.length = len.toNat) (h : openHash s = .error code) : exec (.absorb len d) s = .next (failed s code) := by
  simp only [exec, execAbsorb, withLength, hl, if_true, h, raise_eq_failed]

theorem exec_final_opened {p : List Byte} {s o : State} (e : Bool) (hl : p.length = 0) (h : openHash s = .ok o) :
    exec (.final e p) s =
      .next ((o.finalize e).respond (digestBytes (o.finalize e).h (o.finalize e).p_dlen.toNat)) := by
  simp only [exec, execFinal, withLength, hl, if_true, h]

theorem exec_final_unopened {p : List Byte} {s : State} {code : Status} (e : Bool) (hl : p.length = 0)
    (h : openHash s = .error code) : exec (.final e p) s = .next (failed s code) := by
  simp only [exec, execFinal, withLength, hl, if_true, h, raise_eq_failed]

theorem openHash_valid {s : State} (hu : s.lc = .uninitialized) (hv : s.Valid) : openHash s = .ok s.doInit := by
  simp only [openHash_uninitialized hu, firstInvalid_eq_none.2 hv]

theorem openHash_invalid {s : State} {code : Status} (hu : s.lc = .uninitialized) (h : firstInvalid s = some code) :
    openHash s = .error code := by
  simp only [openHash_uninitialized hu, h]

/-! ### The key in the buffer -/

@[simp] theorem length_keyBytes (s : State) : (keyBytes s).length = min s.p_klen.toNat 64 := by
  simp [keyBytes]

@[simp] theorem toNat_keyFill (k : BitVec 7) : (keyFill k).toNat = k.toNat := by
  simp only [keyFill, BitVec.toNat_setWidth]
  omega

theorem wf_doInit (s : State) : s.doInit.buf.wf = true :=
  Memory.wf_writeBytes rfl 0 _ (by simp)

/-! ### The compression -/

theorem messageWords_congr {m m' : Memory} (h : ∀ a, a < 128 → m.read a = m'.read a) :
    messageWords m = messageWords m' := by
  have hw : ∀ i : Fin 16, m.readWord (8 * i.val) = m'.readWord (8 * i.val) := fun i =>
    Memory.readWord_congr fun k hk => h _ (by omega)
  simp only [messageWords, hw]

/-- The rotation of the spec is Lean's own, for every distance the core uses. -/
theorem ror64_eq_rotateRight (w : Word) {n : Nat} (h : n < 64) : ror64 w n = w.rotateRight n := by
  simp [ror64, BitVec.rotateRight, BitVec.rotateRightAux, Nat.mod_eq_of_lt h]

/-- The digest has as many bytes as asked for, 64 at most. -/
theorem length_digestBytes (h : Vector Word 8) (n : Nat) : (digestBytes h n).length = min n 64 := by
  simp [digestBytes, List.length_flatMap, List.map_const']

/-! ### The counter -/

theorem countLow_count (s : State) : countLow s.count = s.t0 := by
  have := s.t0.isLt
  apply BitVec.eq_of_toNat_eq
  simp only [countLow, State.count, BitVec.toNat_ofNat]
  omega

theorem countHigh_count (s : State) : countHigh s.count = s.t1 := by
  have := s.t0.isLt
  have := s.t1.isLt
  apply BitVec.eq_of_toNat_eq
  simp only [countHigh, State.count, BitVec.toNat_ofNat]
  omega

/-- The words of a count depend on the count modulo `2^128`. -/
theorem countLow_mod (c : Nat) : countLow (c % 2 ^ 128) = countLow c := by
  apply BitVec.eq_of_toNat_eq
  simp only [countLow, BitVec.toNat_ofNat]
  omega

theorem countHigh_mod (c : Nat) : countHigh (c % 2 ^ 128) = countHigh c := by
  apply BitVec.eq_of_toNat_eq
  simp only [countHigh, BitVec.toNat_ofNat]
  omega

end Sys2Proof.Machine
end

