-- ==== Sys2Proof/Laws/Blocks.lean ====
section
/-! SUPPORT. The blocks of a byte string and the pending bytes: how the closed form of the hash
(Machine/Reference.lean) takes one byte and one block more. -/

namespace Sys2Proof.Machine

/-- The blocks after the first are the blocks of the rest. -/
theorem blockAt_cons {blk : List Byte} (hb : blk.length = 128) (rest : List Byte) (k : Nat) :
    blockAt (blk ++ rest) (k + 1) = blockAt rest k := by
  have h : Config.block * (k + 1) = blk.length + 128 * k := by simp [hb, Config.block]; omega
  simp only [blockAt]
  rw [h, List.drop_length_add_append]

/-- A count matters modulo `2^128` only. -/
theorem chainBlocks_mod (h : Vector Word 8) (c c' : Nat) (hc : c % 2 ^ 128 = c' % 2 ^ 128) (data : List Byte)
    (n : Nat) : chainBlocks h c data n = chainBlocks h c' data n := by
  induction n with
  | zero => rfl
  | succ n ih =>
    have hm : (c + 128 * (n + 1)) % 2 ^ 128 = (c' + 128 * (n + 1)) % 2 ^ 128 := by omega
    simp only [chainBlocks, ih, Config.block]
    rw [← countLow_mod, ← countHigh_mod, hm, countLow_mod, countHigh_mod]

/-- The first block of a byte string, then the others. -/
theorem chainBlocks_cons (h : Vector Word 8) (c : Nat) {blk : List Byte} (hb : blk.length = 128) (rest : List Byte)
    (n : Nat) :
    chainBlocks h c (blk ++ rest) (n + 1) =
      chainBlocks (compress h (blockAt blk 0) (countLow (c + 128)) (countHigh (c + 128)) 0 0) (c + 128) rest n := by
  induction n with
  | zero =>
    simp [chainBlocks, blockAt, hb, List.take_of_length_le (Nat.le_of_eq hb)]
  | succ n ih =>
    rw [chainBlocks, ih, chainBlocks, blockAt_cons hb]
    have h1 : c + Config.block * (n + 1 + 1) = c + 128 + Config.block * (n + 1) := by simp only [Config.block]; omega
    rw [h1]

theorem pendingBytes_getElem? (s : State) (k : Nat) :
    (pendingBytes s)[k]? = if k < s.buf_len.toNat then some (s.buf.read k) else none := by
  simp only [pendingBytes, List.getElem?_map]
  split
  · next h => simp [h]
  · next h => simp [h]

theorem length_pendingBytes (s : State) : (pendingBytes s).length = s.buf_len.toNat := by simp [pendingBytes]

/-- One byte more is pending after it is pushed. -/
theorem pendingBytes_pushByte {s : State} (b : Byte) (hwf : s.buf.wf = true) (h : s.buf_len.toNat ≤ 127) :
    pendingBytes (s.pushByte b) = pendingBytes s ++ [b] := by
  have hr := Memory.read_write hwf s.buf_len.toNat b
  have hf := pushByte_fill b h
  simp only [pendingBytes, hf, List.range_succ, List.map_append, List.map_cons, List.map_nil]
  congr 1
  · apply List.map_congr_left
    intro a ha
    have : a < s.buf_len.toNat := by simpa using ha
    show (s.buf.write s.buf_len.toNat b).read a = _
    rw [hr, if_neg (by omega)]
  · show [(s.buf.write s.buf_len.toNat b).read _] = _
    rw [hr, if_pos rfl]

/-- A block of at most 128 bytes reads as them, zero-padded. -/
theorem read_blockAt {data : List Byte} (hd : data.length ≤ 128) (a : Nat) (ha : a < 128) :
    (blockAt data 0).read a = data.getD a 0 := by
  simp only [blockAt, Nat.mul_zero, List.drop_zero]
  rw [List.take_of_length_le hd, Memory.read_writeBytes rfl 0 _ (by omega)]
  by_cases h : a < data.length
  · rw [if_pos (by omega)]; rfl
  · rw [if_neg (by omega), List.getD_eq_getElem?_getD, List.getElem?_eq_none (by omega)]; rfl

theorem pendingBytes_getD {s : State} (a : Nat) (h : a < s.buf_len.toNat) :
    (pendingBytes s).getD a 0 = s.buf.read a := by
  rw [List.getD_eq_getElem?_getD, pendingBytes_getElem?, if_pos h]; rfl

end Sys2Proof.Machine
end

