-- ==== Sys2Proof/Laws/Decode.lean ====
section
/-! SUPPORT. The fields of a header, masks over fields, and commands carried as bytes. -/

namespace Sys2Proof

open Machine

@[simp] theorem opField_header (op arg : BitVec 8) (len : BitVec 16) : opField (header op arg len) = op := by
  ext i hi
  simp [opField, header]
  grind

@[simp] theorem argField_header (op arg : BitVec 8) (len : BitVec 16) : argField (header op arg len) = arg := by
  ext i hi
  simp [argField, header]
  grind

@[simp] theorem lenField_header (op arg : BitVec 8) (len : BitVec 16) : lenField (header op arg len) = len := by
  ext i hi
  simp [lenField, header]
  grind

/-- A header is its three fields (30_encoding.md R71). -/
theorem header_fields (hdr : Header) : header (opField hdr) (argField hdr) (lenField hdr) = hdr := by
  ext i hi
  simp [opField, argField, lenField, header]
  grind

theorem header_inj {op op' arg arg' : BitVec 8} {len len' : BitVec 16} :
    header op arg len = header op' arg' len' ↔ op = op' ∧ arg = arg' ∧ len = len' := by
  constructor
  · intro h
    exact ⟨by simpa using congrArg opField h, by simpa using congrArg argField h, by simpa using congrArg lenField h⟩
  · rintro ⟨rfl, rfl, rfl⟩
    rfl

/-- A mask over a header is a mask over each field. -/
theorem header_and (op op' arg arg' : BitVec 8) (len len' : BitVec 16) :
    header op arg len &&& header op' arg' len' = header (op &&& op') (arg &&& arg') (len &&& len') := by
  ext i hi
  simp [header]
  grind

/-- A row of the table over the three fields. -/
theorem spells_header (r : OpcodeRow) (op arg : BitVec 8) (len : BitVec 16) :
    r.spells (header op arg len) ↔
      op &&& opField r.maskBits = opField r.matchBits ∧ arg &&& argField r.maskBits = argField r.matchBits ∧
        len &&& lenField r.maskBits = lenField r.matchBits := by
  unfold OpcodeRow.spells
  rw [← header_fields r.maskBits, ← header_fields r.matchBits, header_and, header_inj]
  simp

/-- The header of every instruction has the length the instruction declares. -/
theorem lenField_encodeHeader (i : Instr) : (lenField (encodeHeader i)).toNat = i.declaredLen := by
  cases i <;> simp [encodeHeader, Instr.declaredLen]

/-- A command carried as bytes is read back whole (R71, D30). -/
@[simp] theorem commandOfBytes_commandBytes (c : Command) : commandOfBytes (commandBytes c) = some c := by
  have h := leNat_bytesLE 4 c.hdr.toNat
  have hlt := c.hdr.isLt
  rw [Nat.mod_eq_of_lt (by omega)] at h
  simp only [bytesLE] at h
  simp only [commandBytes, bytesLE, List.cons_append, List.nil_append, commandOfBytes, h]
  rw [BitVec.ofNat_toNat, BitVec.setWidth_eq]

end Sys2Proof
end

