-- ==== Sys2Proof/Laws/Exec.lean ====
section
/-! SUPPORT. What a command that answers can have done, said once for all twelve commands, and what a step can have
done. Every invariant of the machine is a case analysis over these. -/

namespace Sys2Proof.Machine

/-- `w` is `s` with the register of a `SETP` command written, the length and the value being as the command asks. -/
def Written (s w : State) : Instr → Prop
  | .setpDlen p => p.length = 1 ∧ dlenError (scalarOperand p) = none ∧ w = { s with p_dlen := scalarOperand p }
  | .setpKey len p =>
    p.length = len.toNat ∧ klenError len.toNat = none ∧
      w = { s with p_klen := len.setWidth 7, p_key := bytesOperand 64 p }
  | .setpSalt len p =>
    p.length = len.toNat ∧ saltError len.toNat = none ∧
      w = { s with p_salt_en := decide (len ≠ 0), p_salt := bytesOperand 16 p }
  | .setpPers len p =>
    p.length = len.toNat ∧ persError len.toNat = none ∧
      w = { s with p_pers_en := decide (len ≠ 0), p_pers := bytesOperand 16 p }
  | .setpFanout p => p.length = 1 ∧ w = { s with p_fanout := scalarOperand p }
  | .setpDepth p => p.length = 1 ∧ w = { s with p_depth := scalarOperand p }
  | .setpLeaf p => p.length = 4 ∧ w = { s with p_leaf := leafOperand p }
  | .setpInner p => p.length = 1 ∧ innerError (scalarOperand p) = none ∧ w = { s with p_inner := scalarOperand p }
  | .init _ | .absorb _ _ | .final _ _ | .dlen _ => False

/-- What a command that answered did: it failed, or it is one of the five kinds of success. -/
inductive Done (s t : State) : Instr → Prop
  | fail (i : Instr) (code : Status) (hc : code ≠ .ok) (ht : t = failed s code) : Done s t i
  | setp (i : Instr) (w : State) (hw : Written s w i) (ht : t = w.wipe.respond []) : Done s t i
  | init (p : List Byte) (hl : p.length = 0) (hv : s.Valid) (ht : t = s.doInit.respond []) : Done s t (.init p)
  | absorb (len : BitVec 16) (d : List Byte) (o u : State) (hl : d.length = len.toNat) (ho : openHash s = .ok o)
      (ha : absorbBytes d o = .ok u) (ht : t = u.respond []) : Done s t (.absorb len d)
  | final (e : Bool) (p : List Byte) (o : State) (hl : p.length = 0) (ho : openHash s = .ok o)
      (ht : t = (o.finalize e).respond (digestBytes (o.finalize e).h (o.finalize e).p_dlen.toNat)) :
      Done s t (.final e p)
  | dlen (p : List Byte) (hl : p.length = 0) (ht : t = s.respond [s.p_dlen]) : Done s t (.dlen p)

theorem firstInvalid_ne_ok (s : State) : firstInvalid s ≠ some .ok := by
  unfold firstInvalid dlenError klenError innerError
  split_ifs <;> decide

theorem openHash_error_ne_ok {s : State} {code : Status} (h : openHash s = .error code) : code ≠ .ok := by
  have hl : s.lc = .closed ∨ s.lc = .initialized ∨ s.lc = .uninitialized := by cases s.lc <;> simp
  obtain hl | hl | hl := hl
  · rw [openHash_closed hl] at h
    cases h
    decide
  · rw [openHash_initialized hl] at h
    cases h
  · rw [openHash_uninitialized hl] at h
    have hv := firstInvalid_ne_ok s
    cases hf : firstInvalid s with
    | none => simp [hf] at h
    | some c =>
      simp only [hf, Except.error.injEq] at h
      rw [hf] at hv
      rintro rfl
      exact hv (by rw [h])

theorem setParam_done {i : Instr} {n : Nat} {p : List Byte} {inv : Option Status} {w s t : State}
    (hi : inv ≠ some .ok) (hw : p.length = n → inv = none → Written s w i) (h : setParam n p inv w s = .next t) :
    Done s t i := by
  obtain ⟨_, ht⟩ | ⟨_, code, hc, ht⟩ | ⟨hl, hn, ht⟩ := setParam_next h
  · exact .fail i .useLength (by decide) ht
  · exact .fail i code (by rintro rfl; exact hi hc) ht
  · exact .setp i w (hw hl hn) ht

/-- Every command that answers. -/
theorem exec_done {i : Instr} {s t : State} (h : exec i s = .next t) : Done s t i := by
  cases i with
  | setpDlen p =>
    exact setParam_done (by unfold dlenError; split <;> decide) (fun hl hi => ⟨hl, hi, rfl⟩) h
  | setpKey len p =>
    exact setParam_done (by unfold klenError; split <;> decide) (fun hl hi => ⟨hl, hi, rfl⟩) h
  | setpSalt len p =>
    exact setParam_done (by unfold saltError; split <;> decide) (fun hl hi => ⟨hl, hi, rfl⟩) h
  | setpPers len p =>
    exact setParam_done (by unfold persError; split <;> decide) (fun hl hi => ⟨hl, hi, rfl⟩) h
  | setpFanout p => exact setParam_done (inv := none) (by decide) (fun hl _ => ⟨hl, rfl⟩) h
  | setpDepth p => exact setParam_done (inv := none) (by decide) (fun hl _ => ⟨hl, rfl⟩) h
  | setpLeaf p => exact setParam_done (inv := none) (by decide) (fun hl _ => ⟨hl, rfl⟩) h
  | setpInner p =>
    exact setParam_done (by unfold innerError; split <;> decide) (fun hl hi => ⟨hl, hi, rfl⟩) h
  | init p =>
    obtain ⟨_, ht⟩ | ⟨hl, h⟩ := withLength_next h
    · exact .fail _ _ (by decide) ht
    · cases hf : firstInvalid s with
      | none =>
        simp only [hf, Host.Outcome.next.injEq] at h
        exact .init p hl (firstInvalid_eq_none.1 hf) h.symm
      | some code =>
        simp only [hf, Host.Outcome.next.injEq] at h
        exact .fail _ code (by rintro rfl; exact firstInvalid_ne_ok s hf) h.symm
  | absorb len d =>
    obtain ⟨_, ht⟩ | ⟨hl, h⟩ := withLength_next h
    · exact .fail _ _ (by decide) ht
    · cases ho : openHash s with
      | error code =>
        simp only [ho, Host.Outcome.next.injEq] at h
        exact .fail _ code (openHash_error_ne_ok ho) h.symm
      | ok o =>
        simp only [ho] at h
        cases ha : absorbBytes d o with
        | error f => simp [ha] at h
        | ok u =>
          simp only [ha, Host.Outcome.next.injEq] at h
          exact .absorb len d o u hl ho ha h.symm
  | final e p =>
    obtain ⟨_, ht⟩ | ⟨hl, h⟩ := withLength_next h
    · exact .fail _ _ (by decide) ht
    · cases ho : openHash s with
      | error code =>
        simp only [ho, Host.Outcome.next.injEq] at h
        exact .fail _ code (openHash_error_ne_ok ho) h.symm
      | ok o =>
        simp only [ho, Host.Outcome.next.injEq] at h
        exact .final e p o hl ho h.symm
  | dlen p =>
    obtain ⟨_, ht⟩ | ⟨hl, h⟩ := withLength_next h
    · exact .fail _ _ (by decide) ht
    · exact .dlen p hl (Host.Outcome.next.inj h).symm

/-- The bytes of a payload fault only when the first of them meets a fill outside the buffer. -/
theorem absorbBytes_error {bs : List Byte} {s : State} {f : Fault} (h : absorbBytes bs s = .error f) :
    128 ≤ s.buf_len.toNat ∧ f = .bufferOffset s.buf_len.toNat := by
  by_cases hb : s.buf_len.toNat ≤ 127
  · obtain ⟨t, ht, _⟩ := absorbBytes_ok bs hb
    rw [ht] at h
    cases h
  · have ho : 128 ≤ s.buf_len.toNat := by omega
    cases bs with
    | nil => cases h
    | cons b bs =>
      simp only [absorbBytes, absorbByte_outside b ho, Except.error.injEq] at h
      exact ⟨ho, h.symm⟩

/-- Every command answers, but for an `ABSORB` that meets a fill outside the buffer. -/
theorem exec_answers_or_faults (i : Instr) (s : State) :
    (∃ t, exec i s = .next t) ∨
      ∃ len d o f, i = .absorb len d ∧ openHash s = .ok o ∧ absorbBytes d o = .error f ∧ exec i s = .fault f := by
  cases i with
  | setpDlen p => exact .inl (setParam_answers 1 p _ _ s)
  | setpKey len p => exact .inl (setParam_answers len.toNat p _ _ s)
  | setpSalt len p => exact .inl (setParam_answers len.toNat p _ _ s)
  | setpPers len p => exact .inl (setParam_answers len.toNat p _ _ s)
  | setpFanout p => exact .inl (setParam_answers 1 p none _ s)
  | setpDepth p => exact .inl (setParam_answers 1 p none _ s)
  | setpLeaf p => exact .inl (setParam_answers 4 p none _ s)
  | setpInner p => exact .inl (setParam_answers 1 p _ _ s)
  | init p =>
    refine .inl ?_
    by_cases hl : p.length = 0
    · simp only [exec, execInit, withLength, hl, if_true]
      cases firstInvalid s <;> exact ⟨_, rfl⟩
    · exact ⟨_, withLength_differs hl s _⟩
  | final e p =>
    refine .inl ?_
    by_cases hl : p.length = 0
    · cases ho : openHash s with
      | error code => exact ⟨_, exec_final_unopened e hl ho⟩
      | ok o => exact ⟨_, exec_final_opened e hl ho⟩
    · exact ⟨_, withLength_differs hl s _⟩
  | dlen p =>
    refine .inl ?_
    by_cases hl : p.length = 0
    · exact ⟨_, withLength_agrees hl s _⟩
    · exact ⟨_, withLength_differs hl s _⟩
  | absorb len d =>
    by_cases hl : d.length = len.toNat
    · cases ho : openHash s with
      | error code => exact .inl ⟨_, exec_absorb_unopened hl ho⟩
      | ok o =>
        cases ha : absorbBytes d o with
        | ok u => exact .inl ⟨u.respond [], by rw [exec_absorb_opened hl ho, ha]⟩
        | error f => exact .inr ⟨len, d, o, f, rfl, rfl, ha, by rw [exec_absorb_opened hl ho, ha]⟩
    · exact .inl ⟨_, withLength_differs hl s _⟩

/-- Every step that goes on: nothing was waiting, a reserved header was answered, or a command was executed. -/
theorem step_done {s t : State} (h : step s = .next t) :
    (s.cmds = [] ∧ t = s) ∨
      ∃ c rest, s.cmds = c :: rest ∧
        ((∃ r, decode c = .error r ∧ t = failed { s with cmds := rest } .useReserved) ∨
          ∃ i, decode c = .ok i ∧ exec i { s with cmds := rest } = .next t) := by
  cases hc : s.cmds with
  | nil =>
    simp only [step, State.fetch, hc, Host.Outcome.next.injEq] at h
    exact .inl ⟨rfl, h.symm⟩
  | cons c rest =>
    simp only [step, State.fetch, hc] at h
    refine .inr ⟨c, rest, rfl, ?_⟩
    cases hd : decode c with
    | error r =>
      simp only [hd, Host.Outcome.next.injEq] at h
      exact .inl ⟨r, rfl, h.symm⟩
    | ok i =>
      simp only [hd] at h
      exact .inr ⟨i, rfl, h⟩

end Sys2Proof.Machine
end

