-- ==== Sys2Proof/Laws/Mixing.lean ====
section
/-! SUPPORT. What one evaluation of the mixing function leaves in each working word. -/

namespace Sys2Proof.Machine

/-- A working word after one evaluation. -/
theorem applyG_getElem (v : Work) (p : Position) (x y : Word) (k : Fin 16) :
    (applyG v p x y)[k] =
      let q := mixG ⟨v[p.ia], v[p.ib], v[p.ic], v[p.id]⟩ x y
      if k = p.id then q.d else if k = p.ic then q.c else if k = p.ib then q.b else if k = p.ia then q.a else v[k] := by
  simp only [applyG, Fin.getElem_fin, Vector.getElem_set, Fin.ext_iff, eq_comm (a := k.val)]

end Sys2Proof.Machine
end

