-- ==== Sys2Proof/Laws/PerInstr.lean ====
section
/-! SUPPORT. Statements made for every instruction, one lemma per constructor. -/

/-! ### EncodedLength: the `len` field of an instruction's header is the length it declares (30_encoding.md R71, R72) -/

/-- The `len` field of the header of `i` is the payload length `i` declares. -/
def Sys2Proof.Laws.EncodedLength.Statement (i : Sys2Proof.Instr) : Prop :=
  (Sys2Proof.lenField (Sys2Proof.encodeHeader i)).toNat = i.declaredLen

namespace Sys2Proof.Laws.EncodedLength

theorem setpDlen (p : List Byte) : Statement (.setpDlen p) := lenField_encodeHeader _

theorem setpKey (len : BitVec 16) (p : List Byte) : Statement (.setpKey len p) := lenField_encodeHeader _

theorem setpSalt (len : BitVec 16) (p : List Byte) : Statement (.setpSalt len p) := lenField_encodeHeader _

theorem setpPers (len : BitVec 16) (p : List Byte) : Statement (.setpPers len p) := lenField_encodeHeader _

theorem setpFanout (p : List Byte) : Statement (.setpFanout p) := lenField_encodeHeader _

theorem setpDepth (p : List Byte) : Statement (.setpDepth p) := lenField_encodeHeader _

theorem setpLeaf (p : List Byte) : Statement (.setpLeaf p) := lenField_encodeHeader _

theorem setpInner (p : List Byte) : Statement (.setpInner p) := lenField_encodeHeader _

theorem init (p : List Byte) : Statement (.init p) := lenField_encodeHeader _

theorem absorb (len : BitVec 16) (p : List Byte) : Statement (.absorb len p) := lenField_encodeHeader _

theorem final (e : Bool) (p : List Byte) : Statement (.final e p) := lenField_encodeHeader _

theorem dlen (p : List Byte) : Statement (.dlen p) := lenField_encodeHeader _

end Sys2Proof.Laws.EncodedLength

/-- An instruction that carries the payload it declares is well-formed. -/
theorem Sys2Proof.Instr.LengthAgrees.wellFormed {i : Sys2Proof.Instr} (h : i.LengthAgrees) : i.WellFormed := by
  have hd : i.declaredLen ≤ 65535 := by
    have := (lenField (encodeHeader i)).isLt
    rw [lenField_encodeHeader] at this
    omega
  exact h.trans_le hd
end

