-- ==== Sys2Proof/Tests/Slice0.lean ====
section
/-! SUPPORT. The model's own tests. Every expected value is printed in spec/: the vectors V<n> are those of
95_test_vectors.md, the others name their rule. A `witness_` theorem shows that the hypotheses of the obligation it is
named after are met together. -/

namespace Sys2Proof.Tests

open Sys2Proof Sys2Proof.Machine

/-! ### Small states and readers -/

/-- A configured core: digest length 64, everything else as after reset. -/
def ready : State := { State.reset with p_dlen := 64 }

/-- A core after `INIT` with digest length 64. -/
def opened : State := ready.doInit

/-- The bytes `abc` (V32). -/
def abc : List Byte := [0x61, 0x62, 0x63]

/-- The start of V97 and V114: three bytes pending. -/
def pending : State := { opened with buf := [(0, 0x61), (1, 0x62), (2, 0x63)], buf_len := 3 }

/-- A finalized core, digest length 32. -/
def closed : State := { State.reset with lc := .closed, p_dlen := 32, f0 := 0xffffffffffffffff }

/-- A state no run reaches: initialized with 128 bytes pending. -/
def overfull : State := { opened with buf_len := 128 }

/-- The bytes `a, a+1, ..., a+n-1`. -/
def bytesFrom (a n : Nat) : List Byte := (List.range n).map fun k => BitVec.ofNat 8 (a + k)

/-- Whether a command answered and its state meets `p`. -/
def after (r : Result) (p : State → Bool) : Bool :=
  match r with
  | .next t => p t
  | .fault _ => false
  | .refused _ => false

/-- Whether a command answered with this status and these data bytes. -/
def answers (r : Result) (code : Status) (data : List Byte) : Bool :=
  after r fun t => decide (t.resp = some ⟨code, data⟩)

/-- Whether a command failed with this status and nothing else changed. -/
def fails (r : Result) (s : State) (code : Status) : Bool := after r fun t => decide (t = failed s code)

/-! ### Well-formedness -/

/-- A payload of 65536 bytes is no command (R4): the check refuses it. -/
theorem test_wellFormed_refuses_long_payload : ¬ (Instr.absorb 0 (List.replicate 65536 0)).WellFormed := by
  rw [Instr.WellFormed, Instr.payload, List.length_replicate]
  decide

/-- The longest payload is a command (V71). -/
theorem test_wellFormed_accepts_longest_payload : (Instr.absorb 65535 (List.replicate 65535 0)).WellFormed := by
  rw [Instr.WellFormed, Instr.payload, List.length_replicate]

/-! ### Decoding: the words of 30_encoding.md R72, R80 written out field by field -/

/-- V60, V67, V68: the `SETP` commands of a fixed length. -/
theorem test_decode_setp_fixed :
    decode ⟨0b00000001000000000000000000000001, [0x40]⟩ = .ok (.setpDlen [0x40]) ∧
    decode ⟨0b00000001000001000000000000000001, [2]⟩ = .ok (.setpFanout [2]) ∧
    decode ⟨0b00000001000001010000000000000001, [2]⟩ = .ok (.setpDepth [2]) ∧
    decode ⟨0b00000001000001100000000000000100, [0, 0x10, 0, 0]⟩ = .ok (.setpLeaf [0, 0x10, 0, 0]) ∧
    decode ⟨0b00000001000001110000000000000001, [0x20]⟩ = .ok (.setpInner [0x20]) := by decide

/-- V61 to V66: the `SETP` commands whose length is an operand. -/
theorem test_decode_setp_operand :
    decode ⟨0b00000001000000010000000000000000, []⟩ = .ok (.setpKey 0 []) ∧
    decode ⟨0b00000001000000011111111111111111, []⟩ = .ok (.setpKey 65535 []) ∧
    decode ⟨0b00000001000000100000000000010000, [7]⟩ = .ok (.setpSalt 16 [7]) ∧
    decode ⟨0b00000001000000110000000000010001, []⟩ = .ok (.setpPers 17 []) := by decide

/-- V69 to V73: the hash commands. -/
theorem test_decode_hash_commands :
    decode ⟨0b00000010000000000000000000000000, []⟩ = .ok (.init []) ∧
    decode ⟨0b00000011000000000000000000000011, abc⟩ = .ok (.absorb 3 abc) ∧
    decode ⟨0b00000011000000001111111111111111, []⟩ = .ok (.absorb 65535 []) ∧
    decode ⟨0b00000100000000000000000000000000, []⟩ = .ok (.final false []) ∧
    decode ⟨0b00000100000000010000000000000000, []⟩ = .ok (.final true []) ∧
    decode ⟨0b00000101000000000000000000000000, []⟩ = .ok (.dlen []) := by decide

/-- V74, V75: the reserved opcodes and selectors. -/
theorem test_decode_reserved_opcode :
    decode ⟨0x00000000, []⟩ = .error .opcode ∧ decode ⟨0x06000000, []⟩ = .error .opcode ∧
    decode ⟨0xff000000, []⟩ = .error .opcode ∧ decode ⟨0x01080001, [1]⟩ = .error .selector ∧
    decode ⟨0x01ff0000, []⟩ = .error .selector := by decide

/-- V76 to V79: the reserved lengths and arguments. -/
theorem test_decode_reserved_fields :
    decode ⟨0x01000000, []⟩ = .error .length ∧ decode ⟨0x01060008, []⟩ = .error .length ∧
    decode ⟨0x05000001, []⟩ = .error .length ∧ decode ⟨0x04010001, []⟩ = .error .length ∧
    decode ⟨0x02010000, []⟩ = .error .argument ∧ decode ⟨0x03800005, []⟩ = .error .argument ∧
    decode ⟨0x04030000, []⟩ = .error .argument ∧ decode ⟨0x05010000, []⟩ = .error .argument := by decide

/-- R71, R80: `ABSORB` of `61 62 63` as bytes, the header's low byte first. -/
theorem test_encodeBytes_absorb :
    encodeBytes (.absorb 3 abc) = [0x03, 0x00, 0x00, 0x03, 0x61, 0x62, 0x63] := by decide

/-- R71: fewer than four bytes hold no header. -/
theorem test_decodeBytes_short : decodeBytes [0x00, 0x00, 0x02] = none := by decide

/-- The opcode table's numbering: bits 31 to 0 are the header (spec/opcode_table.json). -/
theorem test_decodeTableWord :
    decodeTableWord 32 0x01000001 = some (.setpDlen [0]) ∧ decodeTableWord 32 0x04010000 = some (.final true []) ∧
    decodeTableWord 32 0x06000000 = none := by decide

/-! ### Text (30_encoding.md R78) -/

theorem test_assemble_setp :
    assemble "SETP.DLEN 64".toList = some (.setpDlen [0x40]) ∧
    assemble "SETP.LEAF 4096".toList = some (.setpLeaf [0x00, 0x10, 0x00, 0x00]) ∧
    assemble "SETP.KEY 00fF".toList = some (.setpKey 2 [0x00, 0xff]) ∧
    assemble "SETP.DLEN 256".toList = none := by decide

theorem test_assemble_hash_commands :
    assemble "ABSORB \"abc\"".toList = some (.absorb 3 abc) ∧ assemble "ABSORB -".toList = some (.absorb 0 []) ∧
    assemble "FINAL eol=1".toList = some (.final true []) ∧ assemble "FINAL".toList = some (.final false []) ∧
    assemble "INIT".toList = some (.init []) ∧ assemble "DLEN".toList = some (.dlen []) ∧
    assemble "NOP".toList = none := by decide

theorem test_responseText :
    responseText ⟨.ok, [0x20]⟩ = "-> OK 20" ∧ responseText ⟨.cfgDlen, []⟩ = "-> CFG_DLEN" := by decide

/-! ### The `SETP` commands (V80 to V99) -/

/-- V83. -/
theorem test_setpDlen_above : fails (exec (.setpDlen [0x41]) closed) closed .cfgDlen = true := by decide

/-- V97: the value already held wipes all the same. -/
theorem test_setpDlen_wipes :
    exec (.setpDlen [0x40]) pending = .next { ready with resp := some ⟨.ok, []⟩ } := by rfl

/-- V85, 10_state.md R27. -/
theorem test_setpKey_64 :
    after (exec (.setpKey 64 (bytesFrom 0 64)) pending)
      (fun t => decide (t.p_klen = 64 ∧ t.p_key.toList = bytesFrom 0 64 ∧ t.lc = .uninitialized)) = true := by
  decide +kernel

/-- V86. -/
theorem test_setpKey_65 : fails (exec (.setpKey 65 (bytesFrom 0 65)) closed) closed .cfgKeylen = true := by
  decide +kernel

/-- V88. -/
theorem test_setpSalt_16 :
    after (exec (.setpSalt 16 (bytesFrom 0 16)) closed)
      (fun t => decide (t.p_salt_en = true ∧ t.p_salt.toList = bytesFrom 0 16 ∧ t.lc = .uninitialized)) = true := by
  decide +kernel

/-- V98: a failed `SETP` does not wipe. -/
theorem test_setpSalt_5 : fails (exec (.setpSalt 5 (bytesFrom 0 5)) pending) pending .cfgSalt = true := by
  decide +kernel

/-- V91. -/
theorem test_setpPers_16 :
    after (exec (.setpPers 16 (bytesFrom 16 16)) closed)
      (fun t => decide (t.p_pers_en = true ∧ t.p_pers.toList = bytesFrom 16 16 ∧ t.p_salt_en = false)) = true := by
  decide +kernel

/-- V92. -/
theorem test_setpPers_17 : fails (exec (.setpPers 17 (bytesFrom 0 17)) closed) closed .cfgPers = true := by
  decide +kernel

/-- V93, V99. -/
theorem test_setpFanout_0 :
    after (exec (.setpFanout [0]) closed)
      (fun t => decide (t.p_fanout = 0 ∧ t.p_depth = 1 ∧ t.lc = .uninitialized)) = true := by decide

/-- V93. -/
theorem test_setpDepth_255 :
    after (exec (.setpDepth [0xff]) closed) (fun t => decide (t.p_depth = 255 ∧ t.p_fanout = 1)) = true := by decide

/-- R99: `SETP.LEAF 4096`. -/
theorem test_setpLeaf_4096 :
    after (exec (.setpLeaf [0x00, 0x10, 0x00, 0x00]) closed) (fun t => decide (t.p_leaf = 4096)) = true := by decide

/-- V95. -/
theorem test_setpInner_64 :
    after (exec (.setpInner [0x40]) closed) (fun t => decide (t.p_inner = 64)) = true := by decide

/-- V96. -/
theorem test_setpInner_65 : fails (exec (.setpInner [0x41]) pending) pending .cfgInner = true := by decide +kernel

/-! ### The parameter block and initialization -/

/-- The registers of V19. -/
def v19 : State :=
  { State.reset with
    p_dlen := 32
    p_klen := 32
    p_fanout := 2
    p_depth := 2
    p_leaf := 4096
    p_inner := 32
    p_salt := bytesOperand 16 (bytesFrom 0 16)
    p_pers := bytesOperand 16 (bytesFrom 16 16) }

/-- V19: every field of the parameter block. -/
theorem test_pblock_v19 :
    pblock v19 = #v[0x0000100002022020, 0, 0x0000000000002000, 0, 0x0706050403020100, 0x0f0e0d0c0b0a0908,
      0x1716151413121110, 0x1f1e1d1c1b1a1918] := by decide +kernel

/-- V19 and R131: the seed of `INIT`, and the key copied into the buffer. -/
theorem test_init_v19 :
    after (exec (.init []) v19)
      (fun t => decide (t.h = #v[0x6a09f667f1bee928, 0xbb67ae8584caa73b, 0x3c6ef372fe94d82b, 0xa54ff53a5f1d36f1,
        0x5608577baee483d1, 0x940b658020346517, 0x0895ccbfe853ac7b, 0x44fed00508643861] ∧ t.buf_len = 32)) = true := by
  decide +kernel

/-- V100. -/
theorem test_init_without_dlen : fails (exec (.init []) State.reset) State.reset .cfgDlen = true := by decide

/-! ### The compression -/

/-- V11, V12: the mixing function. -/
theorem test_mixG :
    mixG ⟨1, 2, 3, 4⟩ 5 6 = ⟨0x0000010000000c0e, 0x181c021802181806, 0x0c0e000c010c0003, 0x0c0e0000010c0000⟩ ∧
    mixG ⟨ones64, ones64, ones64, ones64⟩ ones64 ones64 =
      ⟨0x000000fffffffdfc, 0xfbf801fbfe0403fd, 0xfdfc000200fdfffe, 0xfdfc000000fdffff⟩ := by decide

/-- V14: rotation right. -/
theorem test_ror64 :
    ror64 1 63 = 0x0000000000000002 ∧ ror64 0x0123456789abcdef 24 = 0xabcdef0123456789 := by decide

/-- V21: one compression in full, the block `abc`. -/
theorem test_compress_abc :
    compress opened.h pending.buf 3 0 ones64 0 =
      #v[0x0d4d1c983fa580ba, 0xe9f6129fb697276a, 0xb7c45a68142f214c, 0xd1a2ffdb6fbb124b,
        0x2d79ab2a39c5877d, 0x95cc3345ded552c2, 0x5a92f1dba88ad318, 0x239900d4ed8623b9] := by decide +kernel

/-- V41: the carry into the high word, at a multiple of 128 and off it. -/
theorem test_ctrAdd :
    (let t := State.ctrAdd { State.reset with t0 := 0xffffffffffffff80 } 128
     t.t0 = 0 ∧ t.t1 = 1) ∧
    (let t := State.ctrAdd { State.reset with t0 := 0xffffffffffffff9c } 128
     t.t0 = 0x1c ∧ t.t1 = 1) ∧
    (let t := State.ctrAdd { State.reset with t0 := 0xffffffffffffffff, t1 := 3 } 0
     t.t0 = 0xffffffffffffffff ∧ t.t1 = 3) := by decide

/-! ### `ABSORB`, `FINAL`, `DLEN` -/

/-- V33: the 128th byte fills the buffer, which is compressed at once and cleared. -/
theorem test_absorb_full_block :
    after (exec (.absorb 128 (bytesFrom 0 128)) opened)
      (fun t => decide (t.h = #v[0xffa0852a267eb85a, 0xee3e4a8743c6c30b, 0x28a559f71459300a, 0x61b0eeaf429e7346,
        0x2f194672bced790f, 0xbef760bb734a4a5d, 0x37410e514215c327, 0xe96b7e8825d0f5a7] ∧
        t.t0 = 0x80 ∧ t.t1 = 0 ∧ t.f0 = 0 ∧ t.buf_len = 0 ∧ t.buf = [])) = true := by decide +kernel

/-- V40: the counter carries before the compression reads it. -/
theorem test_absorb_counter_carry :
    after (exec (.absorb 128 (List.replicate 128 0)) { opened with t0 := 0xffffffffffffff80 })
      (fun t => decide (t.h = #v[0xf96013fc926706c6, 0xbcc002d1ba4ceb0e, 0x1337a4b623fe0e1a, 0xc499584bcf587693,
        0x3b894af8ddf49b58, 0x4fdb078d2c3140d9, 0xa1452db538a6fd07, 0xaf78d2e55e33de82] ∧
        t.t0 = 0 ∧ t.t1 = 1)) = true := by decide +kernel

/-- V36: a key of 32 bytes and `abc`, digest length 32; the key is not padded to a block. -/
theorem test_final_keyed :
    answers (exec (.final false [])
        { State.doInit { State.reset with
            p_dlen := 32, p_klen := 32, p_key := bytesOperand 64 (bytesFrom 0 32) } with
          buf := Memory.zeroed.writeBytes 0 (bytesFrom 0 32 ++ abc), buf_len := 35 })
      .ok [0x27, 0x5e, 0x0e, 0x03, 0x99, 0xb0, 0x6f, 0xaf, 0xc4, 0x84, 0xa9, 0x90, 0xbe, 0x8c, 0x46, 0x4c,
        0x83, 0x1f, 0x75, 0x53, 0xf5, 0x00, 0x01, 0x5d, 0x55, 0xd6, 0x6b, 0x15, 0x6a, 0x90, 0x17, 0x0a] = true := by
  decide +kernel

/-- V39: tree parameters, salt, personalization and the end-of-layer flag. -/
theorem test_final_end_of_layer :
    answers (exec (.final true [])
        { State.doInit { v19 with p_klen := 0 } with buf := pending.buf, buf_len := 3 })
      .ok [0xb9, 0x4b, 0xdc, 0x97, 0xad, 0x3f, 0xcc, 0x30, 0x1d, 0xb4, 0xd2, 0x76, 0x02, 0x4e, 0x2f, 0x18,
        0xd2, 0xdc, 0x5a, 0x5a, 0xb9, 0x59, 0xb9, 0xa7, 0x59, 0x99, 0xae, 0xa2, 0x7e, 0x77, 0xb6, 0x08] = true := by
  decide +kernel

/-- V103, V111. -/
theorem test_dlen :
    answers (exec (.dlen []) State.reset) .ok [0x00] = true ∧
    answers (exec (.dlen []) closed) .ok [0x20] = true := by decide

/-! ### The step and the priority of errors -/

/-- V112, V113, V107: the length error comes before the closed error, the reserved header before both. -/
theorem test_error_priority :
    answers (step { closed with cmds := [⟨0x03000004, [0x64, 0x65]⟩] }) .useLength [] = true ∧
    answers (step { closed with cmds := [⟨0x03010000, []⟩] }) .useReserved [] = true ∧
    answers (step { closed with cmds := [⟨0x03000001, [0x78]⟩] }) .useClosed [] = true := by decide

/-- V116: the length error comes before `CFG_DLEN`. -/
theorem test_length_before_dlen :
    answers (step { State.reset with cmds := [⟨0x03000004, [0x64, 0x65]⟩] }) .useLength [] = true ∧
    answers (step { State.reset with cmds := [⟨0x03000003, abc⟩] }) .cfgDlen [] = true := by decide

/-- The word of `SETP.DLEN` placed as the next command runs at once after reset: its payload byte is 0, so it is
answered `CFG_DLEN` (V80). -/
theorem test_withFetchWord :
    answers (step (State.reset.withFetchWord 32 0x01000001)) .cfgDlen [] = true := by decide

/-! ### Witnesses: the hypotheses of each obligation, met together, each clause at the end of its range -/

/-- A core with its parameters at the ends of their ranges (R91). -/
def extreme : State := { State.reset with p_dlen := 1, p_klen := 64, p_inner := 64 }

theorem valid_ready : ready.Valid := ⟨by decide, by decide, by decide, by decide⟩

theorem valid_extreme : extreme.Valid := ⟨by decide, by decide, by decide, by decide⟩

/-- The invariant holds of a core with three bytes pending. -/
theorem inv_pending : pending.Inv where
  buf_wf := by decide
  buf_len_lt := by decide
  dlen_le := by decide
  klen_le := by decide
  inner_le := by decide
  key_zero := fun j _ => by simp [pending, opened, ready, State.reset]
  salt_zero := fun _ => rfl
  pers_zero := fun _ => rfl
  initialized := fun _ => by decide
  tail_zero := fun _ j hj => by
    have hj3 : 3 ≤ j := hj
    show Memory.read [(0, 0x61), (1, 0x62), (2, 0x63)] j = 0
    simp only [Memory.read, Memory.unlisted]
    rw [if_neg (by omega), if_neg (by omega), if_neg (by omega)]
  uninitialized := fun h => by cases h
  closed := fun h => by cases h
  flags := by decide

theorem inv_issued (cs : List Command) : State.Inv { pending with cmds := cs } :=
  have h := inv_pending
  ⟨h.1, h.2, h.3, h.4, h.5, h.6, h.7, h.8, h.9, h.10, h.11, h.12, h.13⟩

theorem witness_EncodeOfDecodedCommand : decode ⟨0x04010000, [0x00]⟩ = .ok (.final true [0x00]) := by decide

theorem witness_DecoderAgreesWithTheMatchMaskTable :
    decode ⟨0x0101ffff, []⟩ = .ok (.setpKey 65535 []) ∧ decode ⟨0x04020000, []⟩ = .error .argument ∧
    ∀ r ∈ opcodeRows, ¬ r.spells 0x04020000 := by
  refine ⟨by decide, by decide, ?_⟩
  simp [opcodeRows]

theorem witness_AssemblerReadsHexadecimalPayloads :
    abc ≠ [] ∧ abc.length ≤ 65535 ∧ hexText abc = ['6', '1', '6', '2', '6', '3'] := by decide

theorem witness_StepExecutesTheOldestCommand :
    State.cmds { ready with cmds := [⟨0x02000000, []⟩, ⟨0x05000000, []⟩] } = ⟨0x02000000, []⟩ :: [⟨0x05000000, []⟩] ∧
    decode ⟨0x02000000, []⟩ = .ok (.init []) := by decide

theorem witness_ReservedHeaderChangesNothing :
    State.cmds { pending with cmds := [⟨0x06000000, [0x61]⟩] } = [⟨0x06000000, [0x61]⟩] ∧
    ∀ r ∈ opcodeRows, ¬ r.spells 0x06000000 := by
  refine ⟨rfl, ?_⟩
  simp [opcodeRows]

theorem witness_IdleCoreKeepsItsState : pending.cmds = [] := rfl

theorem witness_IssuedTableWordIsExecuted : decodeTableWord 32 0x03000002 = some (.absorb 2 [0, 0]) := by decide

theorem witness_SetpDlenChecksStoresAndWipes :
    ([] : List Byte).length ≠ 1 ∧ ((0 : Byte).toNat < 1 ∨ 64 < (0 : Byte).toNat) ∧
    ((65 : Byte).toNat < 1 ∨ 64 < (65 : Byte).toNat) ∧
    (1 ≤ (1 : Byte).toNat ∧ (1 : Byte).toNat ≤ 64) ∧ (1 ≤ (64 : Byte).toNat ∧ (64 : Byte).toNat ≤ 64) := by decide

theorem witness_SetpKeyChecksStoresAndWipes :
    ([] : List Byte).length ≠ (1 : BitVec 16).toNat ∧
    ((bytesFrom 0 65).length = (65 : BitVec 16).toNat ∧ 64 < (65 : BitVec 16).toNat) ∧
    ((bytesFrom 0 64).length = (64 : BitVec 16).toNat ∧ (64 : BitVec 16).toNat ≤ 64) ∧
    (([] : List Byte).length = (0 : BitVec 16).toNat ∧ (0 : BitVec 16).toNat ≤ 64) := by decide +kernel

theorem witness_SetpSaltChecksStoresAndWipes :
    (bytesFrom 0 16).length ≠ (0 : BitVec 16).toNat ∧
    ((bytesFrom 0 15).length = (15 : BitVec 16).toNat ∧ (15 : BitVec 16).toNat ≠ 0 ∧ (15 : BitVec 16).toNat ≠ 16) ∧
    ((bytesFrom 0 16).length = (16 : BitVec 16).toNat ∧ (16 : BitVec 16).toNat = 16) ∧
    (([] : List Byte).length = (0 : BitVec 16).toNat ∧ (0 : BitVec 16).toNat = 0) := by decide +kernel

theorem witness_SetpPersChecksStoresAndWipes :
    (bytesFrom 0 16).length ≠ (17 : BitVec 16).toNat ∧
    ((bytesFrom 0 17).length = (17 : BitVec 16).toNat ∧ (17 : BitVec 16).toNat ≠ 0 ∧ (17 : BitVec 16).toNat ≠ 16) ∧
    ((bytesFrom 0 16).length = (16 : BitVec 16).toNat ∧ (16 : BitVec 16).toNat = 16) ∧
    (([] : List Byte).length = (0 : BitVec 16).toNat ∧ (0 : BitVec 16).toNat = 0) := by decide +kernel

theorem witness_SetpFanoutAndDepthStoreAndWipe : ([0, 0] : List Byte).length ≠ 1 := by decide

theorem witness_SetpLeafStoresAndWipes : ([0, 0, 0] : List Byte).length ≠ 4 := by decide

theorem witness_SetpInnerChecksStoresAndWipes :
    ([] : List Byte).length ≠ 1 ∧ 64 < (65 : Byte).toNat ∧ (64 : Byte).toNat ≤ 64 ∧ (0 : Byte).toNat ≤ 64 := by decide

theorem witness_WrongPayloadSizeIsRefusedWhole :
    (Instr.dlen [0]).payload.length ≠ (lenField (encodeHeader (.dlen [0]))).toNat ∧
    (Instr.absorb 4 [0x64, 0x65]).payload.length ≠ (lenField (encodeHeader (.absorb 4 [0x64, 0x65]))).toNat := by
  decide

theorem witness_FailedCommandChangesNothing :
    ∃ t r, exec (.setpInner [0x41]) pending = .next t ∧ t.resp = some r ∧ r.status ≠ .ok :=
  ⟨failed pending .cfgInner, ⟨.cfgInner, []⟩, rfl, rfl, by decide⟩

theorem witness_FailedCommandLeavesNoTrace :
    ∃ t r, exec (.absorb 0 []) closed = .next t ∧ t.resp = some r ∧ r.status ≠ .ok :=
  ⟨failed closed .useClosed, ⟨.useClosed, []⟩, rfl, rfl, by decide⟩

theorem witness_ClosedCoreRefusesAbsorbAndFinal :
    closed.lc = .closed ∧ ([] : List Byte).length = (0 : BitVec 16).toNat ∧
    abc.length = (3 : BitVec 16).toNat ∧
    ∃ t r, exec (.final true []) closed = .next t ∧ t.resp = some r ∧ r.status = .useClosed :=
  ⟨rfl, rfl, rfl, failed closed .useClosed, ⟨.useClosed, []⟩, rfl, rfl, rfl⟩

theorem witness_ResponseDataComeFromFinalAndDlenOnly :
    ready.p_dlen.toNat ≤ 64 ∧
    (∃ t r, exec (.setpInner [0x41]) ready = .next t ∧ t.resp = some r ∧ r.status ≠ .ok) ∧
    (∃ t r, exec (.final true []) ready = .next t ∧ t.resp = some r ∧ r.status = .ok) ∧
    ∃ t r, exec (.dlen []) ready = .next t ∧ t.resp = some r ∧ r.status = .ok ∧ r.data ≠ [] :=
  ⟨by decide, ⟨_, ⟨.cfgInner, []⟩, rfl, rfl, by decide⟩, ⟨_, ⟨.ok, _⟩, rfl, rfl, rfl⟩,
    ⟨_, ⟨.ok, [0x40]⟩, rfl, rfl, rfl, by decide⟩⟩

theorem witness_OnlyAnOffsetOutsideTheBufferFaults :
    exec (.absorb 1 [0x61]) overfull = .fault (.bufferOffset 128) := rfl

theorem witness_InitSeedsTheHash :
    ready.Valid ∧ extreme.Valid ∧ (63 : Fin 64).val < extreme.p_klen.toNat ∧ extreme.p_klen.toNat ≤ 64 ∧
    ready.p_klen.toNat ≤ 0 := ⟨valid_ready, valid_extreme, by decide, by decide, by decide⟩

theorem witness_IllegalParametersStopInitialization :
    (Instr.init []).LengthAgrees ∧ (Instr.absorb 0 []).LengthAgrees ∧ (Instr.final true []).LengthAgrees ∧
    State.reset.lc = .uninitialized ∧
    (State.reset.p_dlen.toNat < 1 ∨ 64 < State.reset.p_dlen.toNat) ∧
    (let s := { State.reset with p_dlen := 65 }
     s.p_dlen.toNat < 1 ∨ 64 < s.p_dlen.toNat) ∧
    (let s := { State.reset with p_dlen := 64, p_klen := 65 }
     1 ≤ s.p_dlen.toNat ∧ s.p_dlen.toNat ≤ 64 ∧ 64 < s.p_klen.toNat) ∧
    (let s := { State.reset with p_dlen := 1, p_klen := 64, p_inner := 65 }
     1 ≤ s.p_dlen.toNat ∧ s.p_dlen.toNat ≤ 64 ∧ s.p_klen.toNat ≤ 64 ∧ 64 < s.p_inner.toNat) := by decide

theorem witness_ImplicitInitializationIsInit :
    ready.lc = .uninitialized ∧ ready.Valid ∧ ([] : List Byte).length = (0 : BitVec 16).toNat :=
  ⟨rfl, valid_ready, rfl⟩

theorem witness_CounterIncrementIsA128BitAddition : 0 ≤ 128 ∧ 128 ≤ 128 := by decide

theorem witness_AbsorbStoresPendingBytes :
    pending.lc = .initialized ∧ pending.buf.wf = true ∧ (bytesFrom 0 124).length = (124 : BitVec 16).toNat ∧
    pending.buf_len.toNat + (124 : BitVec 16).toNat < 128 := by decide +kernel

theorem witness_AbsorbCompressesEveryFullBlock :
    pending.lc = .initialized ∧ pending.buf.wf = true ∧ pending.buf_len.toNat ≤ 127 ∧
    (bytesFrom 0 125).length = (125 : BitVec 16).toNat ∧
    ([] : List Byte).length = (0 : BitVec 16).toNat := by decide +kernel

theorem witness_AbsorbIsIndependentOfChunking :
    ([] : List Byte).length = (0 : BitVec 16).toNat ∧ abc.length = (3 : BitVec 16).toNat ∧
    ([] ++ abc).length = (3 : BitVec 16).toNat := by decide

theorem witness_FinalCompressesOnceAndCloses :
    (pending.lc = .initialized ∧ pending.buf_len.toNat ≤ 128) ∧
    (overfull.lc = .initialized ∧ overfull.buf_len.toNat ≤ 128) := by decide

theorem witness_DigestIsTruncatedLittleEndianState :
    (1 ≤ 1 ∧ 1 ≤ 64 ∧ (0 : Fin 64).val < 1) ∧ (1 ≤ 64 ∧ 64 ≤ 64 ∧ (63 : Fin 64).val < 64) := by decide

theorem witness_DlenAnswersTheDigestLength : ([0] : List Byte).length ≠ 0 := by decide

theorem witness_RotationMovesEveryBit : (1 ≤ 1 ∧ 1 ≤ 63 ∧ 0 < 64) ∧ (1 ≤ 63 ∧ 63 ≤ 63 ∧ 63 < 64) := by decide

theorem witness_RoundAppliesTheEightPositionsInOrder :
    ∀ j : Fin 8, ∃ k : Fin 16,
      k ≠ positions[j].ia ∧ k ≠ positions[j].ib ∧ k ≠ positions[j].ic ∧ k ≠ positions[j].id := by decide

theorem witness_EvaluationsOfOneGroupCommute :
    ((0 : Fin 8) ≠ 3 ∧ ((0 : Fin 8).val < 4 ↔ (3 : Fin 8).val < 4)) ∧
    ((4 : Fin 8) ≠ 7 ∧ ((4 : Fin 8).val < 4 ↔ (7 : Fin 8).val < 4)) := by decide

/-- Two buffers that differ at offset 128 alone. -/
theorem witness_CompressionReadsTheBlockOnly :
    ∀ a, a < 128 → Memory.read [(127, 5)] a = Memory.read [(127, 5), (128, 7)] a := by decide +kernel

theorem witness_LifecycleTransitions :
    (∃ t r, exec (.init []) closed = .next t ∧ t.resp = some r ∧ r.status = .ok) ∧
    (∃ t r, exec (.absorb 0 []) State.reset = .next t ∧ t.resp = some r ∧ r.status ≠ .ok) ∧
    ∃ t r, exec (.final false []) closed = .next t ∧ t.resp = some r ∧ closed.lc = .closed :=
  ⟨⟨_, ⟨.ok, []⟩, rfl, rfl, rfl⟩, ⟨_, ⟨.cfgDlen, []⟩, rfl, rfl, by decide⟩, _, ⟨.useClosed, []⟩, rfl, rfl, rfl⟩

theorem witness_HashCommandsKeepTheParameters : ∃ t, exec (.final true []) pending = .next t := ⟨_, rfl⟩

theorem witness_StepKeepsTheInvariant :
    State.Inv { pending with cmds := [⟨0x03000000, []⟩] } ∧
    ∃ t, step { pending with cmds := [⟨0x03000000, []⟩] } = .next t := ⟨inv_issued _, _, rfl⟩

theorem witness_EveryCommandIsAnswered :
    State.Inv { pending with cmds := [⟨0xffffffff, abc⟩] } ∧
    State.cmds { pending with cmds := [⟨0xffffffff, abc⟩] } = ⟨0xffffffff, abc⟩ :: [] := ⟨inv_issued _, rfl⟩

theorem witness_DigestLengthStaysSet :
    State.p_dlen { pending with cmds := [⟨0x01000001, [0x00]⟩] } ≠ 0 ∧
    ∃ t, step { pending with cmds := [⟨0x01000001, [0x00]⟩] } = .next t := ⟨by decide, _, rfl⟩

theorem witness_WipedHashingStateIsUnobservable :
    DifferInWipedState { ready with cmds := [⟨0x04000000, []⟩] }
      { ready with cmds := [⟨0x04000000, []⟩], t0 := 5, f0 := ones64, buf := [(3, 9)], buf_len := 200 } :=
  ⟨rfl, rfl, ⟨rfl, rfl, rfl, rfl, rfl, rfl, rfl, rfl, rfl, rfl, rfl⟩, rfl, rfl⟩

theorem witness_HashOfTheConcatenatedPayloads :
    let pieces : List (List Byte) := [[0x61], [], [0x62, 0x63]]
    let s : State := { ready with
      cmds := [⟨0x02000000, []⟩, ⟨0x03000001, [0x61]⟩, ⟨0x03000000, []⟩, ⟨0x03000002, [0x62, 0x63]⟩,
        ⟨0x04000000, []⟩] }
    s.Valid ∧ (∀ d ∈ pieces, d.length ≤ 65535) ∧
    s.cmds = encode (.init []) :: (pieces.map absorbCommand ++ [encode (.final false [])]) :=
  ⟨⟨by decide, by decide, by decide, by decide⟩, by decide, by decide⟩

theorem witness_CoresOfAPlatformAreIndependent :
    ∃ p', (Platform.mk [ready, closed]).cores[1]? = some closed ∧ platformStep 1 ⟨[ready, closed]⟩ = .next p' :=
  ⟨_, rfl, rfl⟩

end Sys2Proof.Tests
end

section
/-! The `SETP` commands of a checked or unchecked scalar (40_config_encoder.md R93, R99, R100). -/

namespace Sys2Proof.Machine

/-! ### The value checks of one-byte parameters -/

theorem dlenError_legal {n : Byte} (hmin : 1 ≤ n.toNat) (hmax : n.toNat ≤ 64) : dlenError n = none :=
  if_pos ⟨hmin, hmax⟩

theorem dlenError_illegal {n : Byte} (h : n.toNat < 1 ∨ 64 < n.toNat) : dlenError n = some .cfgDlen :=
  if_neg fun ⟨hmin, hmax⟩ => h.elim (Nat.not_lt.2 hmin) (Nat.not_lt.2 hmax)

theorem innerError_legal {n : Byte} (h : n.toNat ≤ 64) : innerError n = none := if_pos h

theorem innerError_illegal {n : Byte} (h : 64 < n.toNat) : innerError n = some .cfgInner := if_neg (Nat.not_le.2 h)

/-! ### The success of a `SETP` command -/

/-- A legal `SETP` command ends in `w`, the state with the register written, wiped and answered (R92). The command
port of `w` is that of `s`, since a register write does not touch it. -/
theorem setParam_writes_and_wipes {n : Nat} {p : List Byte} {inv : Option Status} {w s : State} (hl : p.length = n)
    (hi : inv = none) (hc : w.cmds = s.cmds) :
    ∃ t, setParam n p inv w s = .next t ∧ SameParams w t ∧ Wiped t ∧ Answered s t [] :=
  ⟨_, setParam_stores hl hi w s, sameParams_wipe_respond w, wiped_wipe_respond w, ⟨rfl, hc⟩⟩

/-- The leaf size is the sum of its four bytes, which fits 32 bits (R99). -/
theorem toNat_leafOperand (b0 b1 b2 b3 : Byte) :
    (leafOperand [b0, b1, b2, b3]).toNat = b0.toNat + b1.toNat * 2 ^ 8 + b2.toNat * 2 ^ 16 + b3.toNat * 2 ^ 24 := by
  have hlt : leNat [b0, b1, b2, b3] < 2 ^ 32 := (leNat_lt _).trans_eq (by norm_num)
  rw [leafOperand, BitVec.toNat_ofNat, Nat.mod_eq_of_lt hlt]
  simp only [leNat]
  ring

/-! ### The obligations -/

/-- Settles O10: `setParam` with the range check of R93, at each of its three outcomes. -/
theorem setpDlenChecksStoresAndWipes : Obligations.SetpDlenChecksStoresAndWipes := by
  unfold Obligations.SetpDlenChecksStoresAndWipes
  refine fun s => ⟨fun p => rfl, fun p hl => ?_, fun n hn => ?_, fun n hmin hmax => ?_⟩ <;> rw [exec_setpDlen]
  · exact setParam_wrongLength hl _ _ s
  · exact setParam_illegal rfl (dlenError_illegal hn) _ s
  · exact setParam_writes_and_wipes rfl (dlenError_legal hmin hmax) rfl

/-- Settles O15: `setParam` without a value check; the stored number is `toNat_leafOperand`. -/
theorem setpLeafStoresAndWipes : Obligations.SetpLeafStoresAndWipes := by
  unfold Obligations.SetpLeafStoresAndWipes
  refine fun s => ⟨fun p => rfl, fun p hl => ?_, fun b0 b1 b2 b3 => ?_⟩ <;> rw [exec_setpLeaf]
  · exact setParam_wrongLength hl _ _ s
  · obtain ⟨t, ht, hparams, hwiped, hanswer⟩ := setParam_writes_and_wipes (p := [b0, b1, b2, b3]) (n := 4)
      (w := { s with p_leaf := leafOperand [b0, b1, b2, b3] }) (s := s) rfl rfl rfl
    have hleaf : t.p_leaf = leafOperand [b0, b1, b2, b3] := hparams.leaf
    rw [← hleaf] at hparams
    exact ⟨t, ht, hleaf ▸ toNat_leafOperand b0 b1 b2 b3, hparams, hwiped, hanswer⟩

/-- Settles O16: `setParam` with the upper bound of R100, at each of its three outcomes. -/
theorem setpInnerChecksStoresAndWipes : Obligations.SetpInnerChecksStoresAndWipes := by
  unfold Obligations.SetpInnerChecksStoresAndWipes
  refine fun s => ⟨fun p => rfl, fun p hl => ?_, fun n hn => ?_, fun n hmax => ?_⟩ <;> rw [exec_setpInner]
  · exact setParam_wrongLength hl _ _ s
  · exact setParam_illegal rfl (innerError_illegal hn) _ s
  · exact setParam_writes_and_wipes rfl (innerError_legal hmax) rfl

end Sys2Proof.Machine
end

section
/-! The compression core: the words of the block, the words at entry, `G`, and the rounds with the feed-forward
(41_compression_core.md). -/

namespace Sys2Proof.Machine

/-! ### The words of the block and the words at entry -/

/-- Byte `k` of the word at `a` is the byte at `a + k` (20_memory.md R51). -/
theorem Memory.extractLsb'_readWord (m : Memory) (a : Nat) (k : Fin 8) :
    (m.readWord a).extractLsb' (8 * k.val) 8 = m.read (a + k.val) := by
  rw [Memory.readWord, extractLsb'_le64 _ k.val rfl k.isLt]
  fin_cases k <;> rfl

/-- A message word is the word at eight times its index (R111). -/
theorem messageWords_getElem (block : Memory) (i : Fin 16) :
    (messageWords block)[i] = block.readWord (8 * i.val) :=
  Vector.getElem_ofFn i.isLt

/-- The first eight words at entry are the state words (R112). -/
theorem initWork_state (h : Vector Word 8) (t0 t1 f0 f1 : Word) (i : Fin 8) :
    (initWork h t0 t1 f0 f1)[i.val] = h[i] := by
  fin_cases i <;> rfl

/-- The next four words at entry are the first four initialization constants (R112). -/
theorem initWork_iv (h : Vector Word 8) (t0 t1 f0 f1 : Word) (i : Fin 4) :
    (initWork h t0 t1 f0 f1)[8 + i.val] = iv[i.val] := by
  fin_cases i <;> rfl

/-! ### `G` -/

theorem toNat_add64 (a b : Word) : (add64 a b).toNat = (a.toNat + b.toNat) % 2 ^ 64 := BitVec.toNat_add a b

theorem toNat_add64_add64 (a b x : Word) :
    (add64 (add64 a b) x).toNat = (a.toNat + b.toNat + x.toNat) % 2 ^ 64 := by
  rw [toNat_add64, toNat_add64, Nat.mod_add_mod]

/-! ### The rounds and the feed-forward -/

/-- A round knows its number only through its row of `SIGMA` (R114). -/
theorem mixRound_eq_of_sigma_eq {r r' : Fin 12} (h : sigma[r] = sigma[r']) (m : Message) (v : Work) :
    mixRound m v r = mixRound m v r' := by
  have hstep : stepG m r = stepG m r' := by
    funext v i
    simp only [stepG, h]
  rw [mixRound, mixRound, hstep]

/-- The round loop written out: rounds 0 to 11, each on what the one before left (R115). -/
theorem mixRounds_eq (m : Message) (v : Work) :
    mixRounds m v =
      mixRound m (mixRound m (mixRound m (mixRound m (mixRound m (mixRound m (mixRound m (mixRound m (mixRound m
        (mixRound m (mixRound m (mixRound m v 0) 1) 2) 3) 4) 5) 6) 7) 8) 9) 10) 11 := by
  have hrounds : List.finRange 12 = [0, 1, 2, 3, 4, 5, 6, 7, 8, 9, 10, 11] := by decide
  simp only [mixRounds, hrounds, List.foldl_cons, List.foldl_nil]

/-- A word of the feed-forward (R116). -/
theorem feedForward_getElem (h : Vector Word 8) (v : Work) (i : Fin 8) :
    (feedForward h v)[i] = h[i] ^^^ v[i.val] ^^^ v[i.val + 8] :=
  Vector.getElem_ofFn i.isLt

/-! ### The obligations -/

/-- Settles O34: a message word is a word read of the block, and such a read is little-endian. -/
theorem messageWordsAreLittleEndian : Obligations.MessageWordsAreLittleEndian := by
  unfold Obligations.MessageWordsAreLittleEndian
  intro block i k
  rw [messageWords_getElem, Memory.extractLsb'_readWord]

/-- Settles O35: the two indexed groups are `initWork_state` and `initWork_iv`; the last four words are written out in
`initWork`. -/
theorem workingWordsAtEntry : Obligations.WorkingWordsAtEntry := by
  unfold Obligations.WorkingWordsAtEntry
  exact fun h t0 t1 f0 f1 =>
    ⟨initWork_state h t0 t1 f0 f1, initWork_iv h t0 t1 f0 f1, rfl, rfl, rfl, rfl⟩

/-- Settles O37: the intermediate words are those of `mixG`; its sums are `toNat_add64`, and its rotations are Lean's by
`ror64_eq_rotateRight`. -/
theorem mixFollowsTheEightAssignments : Obligations.MixFollowsTheEightAssignments := by
  unfold Obligations.MixFollowsTheEightAssignments
  intro a b c d x y
  exact ⟨_, _, _, _, _, _, _, _,
    toNat_add64_add64 a b x, ror64_eq_rotateRight _ (by decide),
    toNat_add64 c _, ror64_eq_rotateRight _ (by decide),
    toNat_add64_add64 _ _ y, ror64_eq_rotateRight _ (by decide),
    toNat_add64 _ _, ror64_eq_rotateRight _ (by decide), rfl⟩

/-- Settles O40: the round loop written out under the feed-forward; rows 10 and 11 of `SIGMA` are rows 0 and 1. -/
theorem compressionIsTwelveRoundsAndFeedForward : Obligations.CompressionIsTwelveRoundsAndFeedForward := by
  unfold Obligations.CompressionIsTwelveRoundsAndFeedForward
  refine ⟨fun h block t0 t1 f0 f1 i => ?_, fun m v => ⟨?_, ?_⟩⟩
  · rw [compress, feedForward_getElem, mixRounds_eq]
  · exact mixRound_eq_of_sigma_eq rfl m v
  · exact mixRound_eq_of_sigma_eq rfl m v

end Sys2Proof.Machine
end

section
/-! The errors of the length check and of the lifecycle check (60_exceptions.md R156, R157). -/

namespace Sys2Proof.Machine

/-! ### The length check -/

/-- Every command begins with the length check, against the length it declares (60_exceptions.md R161 item 2). -/
theorem exec_eq_withLength (i : Instr) (s : State) :
    ∃ body, exec i s = withLength i.declaredLen i.payload s body := by
  cases i <;> exact ⟨_, rfl⟩

theorem exec_wrongLength {i : Instr} (hl : ¬ i.LengthAgrees) (s : State) : exec i s = .next (failed s .useLength) := by
  obtain ⟨body, hbody⟩ := exec_eq_withLength i s
  rw [hbody, withLength_differs hl, raise_eq_failed]

/-! ### The lifecycle check -/

theorem firstInvalid_ne_useClosed (s : State) : firstInvalid s ≠ some .useClosed := by
  unfold firstInvalid dlenError klenError innerError
  split_ifs <;> decide

/-- Opening the core raises `USE_CLOSED` for the closed lifecycle state alone: the other errors are those of `VALID`. -/
theorem openHash_useClosed {s : State} (h : openHash s = .error .useClosed) : s.lc = .closed := by
  cases hl : s.lc with
  | closed => rfl
  | initialized => cases (openHash_initialized hl).symm.trans h
  | uninitialized =>
    cases hf : firstInvalid s with
    | none => cases (openHash_valid hl (firstInvalid_eq_none.1 hf)).symm.trans h
    | some code =>
      cases (openHash_invalid hl hf).symm.trans h
      exact absurd hf (firstInvalid_ne_useClosed s)

/-! ### The commands that answer `USE_CLOSED` -/

section
variable {s t : State} {r : Response}

/-- A `SETP` command answers `USE_CLOSED` only if its value check does. -/
theorem setParam_ne_useClosed {n : Nat} {p : List Byte} {inv : Option Status} {w : State}
    (hi : inv ≠ some .useClosed) (h : setParam n p inv w s = .next t) (hr : t.resp = some r) :
    r.status ≠ .useClosed := by
  obtain ⟨_, rfl⟩ | ⟨_, code, hcode, rfl⟩ | ⟨_, _, rfl⟩ := setParam_next h <;> cases hr
  · decide
  · rintro rfl
    exact hi hcode
  · decide

theorem exec_init_ne_useClosed {p : List Byte} (hl : p.length = 0) (h : exec (.init p) s = .next t)
    (hr : t.resp = some r) : r.status ≠ .useClosed := by
  cases hf : firstInvalid s with
  | none =>
    obtain rfl := List.length_eq_zero_iff.1 hl
    cases (exec_init_valid (firstInvalid_eq_none.1 hf)).symm.trans h
    cases hr
    decide
  | some code =>
    cases (exec_init_invalid hl hf).symm.trans h
    cases hr
    rintro rfl
    exact firstInvalid_ne_useClosed s hf

theorem exec_dlen_ne_useClosed {p : List Byte} (hl : p.length = 0) (h : exec (.dlen p) s = .next t)
    (hr : t.resp = some r) : r.status ≠ .useClosed := by
  cases (withLength_agrees hl s _).symm.trans h
  cases hr
  exact nofun

theorem closed_of_exec_absorb_useClosed {len : BitVec 16} {d : List Byte} (hl : d.length = len.toNat)
    (h : exec (.absorb len d) s = .next t) (hr : t.resp = some r) (hs : r.status = .useClosed) : s.lc = .closed := by
  cases ho : openHash s with
  | error code =>
    cases (exec_absorb_unopened hl ho).symm.trans h
    cases hr
    cases hs
    exact openHash_useClosed ho
  | ok o =>
    rw [exec_absorb_opened hl ho] at h
    cases ha : absorbBytes d o with
    | error f => simp [ha] at h
    | ok u =>
      rw [ha] at h
      cases h
      cases hr
      cases hs

theorem closed_of_exec_final_useClosed {e : Bool} {p : List Byte} (hl : p.length = 0)
    (h : exec (.final e p) s = .next t) (hr : t.resp = some r) (hs : r.status = .useClosed) : s.lc = .closed := by
  cases ho : openHash s with
  | error code =>
    cases (exec_final_unopened e hl ho).symm.trans h
    cases hr
    cases hs
    exact openHash_useClosed ho
  | ok o =>
    cases (exec_final_opened e hl ho).symm.trans h
    cases hr
    cases hs

/-- Only `ABSORB` and `FINAL` answer `USE_CLOSED`, and only on a closed core (R156). A payload of another length than
declared is out by `exec_wrongLength`; then each command's own check decides. -/
theorem closed_of_exec_useClosed {i : Instr} (h : exec i s = .next t) (hr : t.resp = some r)
    (hs : r.status = .useClosed) :
    s.lc = .closed ∧ ((∃ len d, i = .absorb len d) ∨ ∃ e p, i = .final e p) := by
  by_cases hl : i.LengthAgrees
  case neg =>
    cases (exec_wrongLength hl s).symm.trans h
    cases hr
    cases hs
  cases i with
  | setpDlen p => exact absurd hs (setParam_ne_useClosed (by simp [dlenError]) h hr)
  | setpKey len p => exact absurd hs (setParam_ne_useClosed (by simp [klenError]) h hr)
  | setpSalt len p => exact absurd hs (setParam_ne_useClosed (by simp [saltError]) h hr)
  | setpPers len p => exact absurd hs (setParam_ne_useClosed (by simp [persError]) h hr)
  | setpFanout p => exact absurd hs (setParam_ne_useClosed (inv := none) nofun h hr)
  | setpDepth p => exact absurd hs (setParam_ne_useClosed (inv := none) nofun h hr)
  | setpLeaf p => exact absurd hs (setParam_ne_useClosed (inv := none) nofun h hr)
  | setpInner p => exact absurd hs (setParam_ne_useClosed (by simp [innerError]) h hr)
  | init p => exact absurd hs (exec_init_ne_useClosed hl h hr)
  | absorb len d => exact ⟨closed_of_exec_absorb_useClosed hl h hr hs, .inl ⟨len, d, rfl⟩⟩
  | final e p => exact ⟨closed_of_exec_final_useClosed hl h hr hs, .inr ⟨e, p, rfl⟩⟩
  | dlen p => exact absurd hs (exec_dlen_ne_useClosed hl h hr)

end

/-! ### The obligations -/

/-- Settles O17: `exec_wrongLength`, the `len` field of the header being the length the instruction declares. -/
theorem wrongPayloadSizeIsRefusedWhole : Obligations.WrongPayloadSizeIsRefusedWhole := by
  unfold Obligations.WrongPayloadSizeIsRefusedWhole
  refine ⟨rfl, fun i s hl => exec_wrongLength ?_ s⟩
  rwa [lenField_encodeHeader] at hl

/-- Settles O20: a closed core cannot be opened, and the converse is `closed_of_exec_useClosed`. -/
theorem closedCoreRefusesAbsorbAndFinal : Obligations.ClosedCoreRefusesAbsorbAndFinal := by
  unfold Obligations.ClosedCoreRefusesAbsorbAndFinal
  exact ⟨rfl, fun _ _ _ hc hl => exec_absorb_unopened hl (openHash_closed hc),
    fun _ e hc => exec_final_unopened e rfl (openHash_closed hc), fun _ _ _ _ => closed_of_exec_useClosed⟩

end Sys2Proof.Machine
end

section
/-! The encoding: the decoder against the encoder and against the match and mask table of R72, and the step on the
command port (30_encoding.md). -/

namespace Sys2Proof

open Machine

/-! ### The decoder against the encoder -/

section
variable {op arg : BitVec 8} {len want : BitVec 16} {p : List Byte} {i j : Instr} {c : Command}

/-- The decoder as a function of the three fields and the payload. -/
theorem decode_header (op arg : BitVec 8) (len : BitVec 16) (p : List Byte) :
    decode ⟨header op arg len, p⟩ =
      if op = 0x01 then decodeSetp arg len p
      else if op = 0x02 then if arg = 0 then fixedLen 0 len (.init p) else .error .argument
      else if op = 0x03 then if arg = 0 then .ok (.absorb len p) else .error .argument
      else if op = 0x04 then
        if arg = 0 then fixedLen 0 len (.final false p)
        else if arg = 1 then fixedLen 0 len (.final true p)
        else .error .argument
      else if op = 0x05 then if arg = 0 then fixedLen 0 len (.dlen p) else .error .argument
      else .error .opcode := by
  simp only [decode, opField_header, argField_header, lenField_header]

/-- Decoding an encoded command: the fields of the encoding select its arm. -/
theorem decode_encode (i : Instr) : decode (encode i) = .ok i := by
  cases i with
  | final e p => cases e <;> simp [encode, encodeHeader, Instr.payload, decode_header, fixedLen]
  | _ => simp [encode, encodeHeader, Instr.payload, decode_header, decodeSetp, fixedLen]

/-- A command of a fixed length that decodes has the length of its encoding. -/
theorem encode_of_fixedLen (h : fixedLen want len i = .ok j) (hi : encode i = ⟨header op arg want, p⟩) :
    encode j = ⟨header op arg len, p⟩ := by
  unfold fixedLen at h
  split at h
  · next hl =>
    cases h
    exact hl ▸ hi
  · cases h

/-- A `SETP` command that decodes has the header of what it decodes to, selector by selector. -/
theorem encode_of_decodeSetp (h : decodeSetp arg len p = .ok i) : encode i = ⟨header 0x01 arg len, p⟩ := by
  unfold decodeSetp at h
  split_ifs at h <;> subst arg
  · exact encode_of_fixedLen h rfl
  · exact Except.ok.inj h ▸ rfl
  · exact Except.ok.inj h ▸ rfl
  · exact Except.ok.inj h ▸ rfl
  · exact encode_of_fixedLen h rfl
  · exact encode_of_fixedLen h rfl
  · exact encode_of_fixedLen h rfl
  · exact encode_of_fixedLen h rfl

/-- A header that decodes is the header of what it decodes to, opcode by
opcode. -/
theorem encode_of_decode_header (h : decode ⟨header op arg len, p⟩ = .ok i) :
    encode i = ⟨header op arg len, p⟩ := by
  rw [decode_header] at h
  split_ifs at h <;> subst op
  · exact encode_of_decodeSetp h
  all_goals subst arg
  · exact encode_of_fixedLen h rfl
  · exact Except.ok.inj h ▸ rfl
  · exact encode_of_fixedLen h rfl
  · exact encode_of_fixedLen h rfl
  · exact encode_of_fixedLen h rfl

theorem encode_of_decode (h : decode c = .ok i) : encode i = c := by
  obtain ⟨hdr, p⟩ := c
  have hh := header_fields hdr
  rw [← hh] at h ⊢
  exact encode_of_decode_header h

/-- The decoder and the encoder are inverse to each other. -/
theorem decode_eq_ok_iff : decode c = .ok i ↔ encode i = c :=
  ⟨encode_of_decode, fun h => h ▸ decode_encode i⟩

end

/-! ### The match and mask table -/

/-- The row of R72 of an instruction. -/
def rowOf : Instr → OpcodeRow
  | .setpDlen _ => ⟨"SETP.DLEN", 0x01000001, 0xffffffff⟩
  | .setpKey _ _ => ⟨"SETP.KEY", 0x01010000, 0xffff0000⟩
  | .setpSalt _ _ => ⟨"SETP.SALT", 0x01020000, 0xffff0000⟩
  | .setpPers _ _ => ⟨"SETP.PERS", 0x01030000, 0xffff0000⟩
  | .setpFanout _ => ⟨"SETP.FANOUT", 0x01040001, 0xffffffff⟩
  | .setpDepth _ => ⟨"SETP.DEPTH", 0x01050001, 0xffffffff⟩
  | .setpLeaf _ => ⟨"SETP.LEAF", 0x01060004, 0xffffffff⟩
  | .setpInner _ => ⟨"SETP.INNER", 0x01070001, 0xffffffff⟩
  | .init _ => ⟨"INIT", 0x02000000, 0xffffffff⟩
  | .absorb _ _ => ⟨"ABSORB", 0x03000000, 0xffff0000⟩
  | .final _ _ => ⟨"FINAL", 0x04000000, 0xfffeffff⟩
  | .dlen _ => ⟨"DLEN", 0x05000000, 0xffffffff⟩

theorem rowOf_mem (i : Instr) : rowOf i ∈ opcodeRows := by
  cases i <;> simp [rowOf, opcodeRows]

theorem rowOf_mnemonic (i : Instr) : (rowOf i).mnemonic = i.mnemonic := by
  cases i <;> rfl

theorem rowOf_spells (i : Instr) : (rowOf i).spells (encodeHeader i) := by
  cases i with
  | final e p => cases e <;> simp [rowOf, encodeHeader, spells_header, opField, argField, lenField]
  | _ => simp [rowOf, encodeHeader, spells_header, opField, argField, lenField]

theorem eq_of_spells_full {m : String} {bits hdr : Header} (h : OpcodeRow.spells ⟨m, bits, 0xffffffff⟩ hdr) :
    hdr = bits := by
  rwa [OpcodeRow.spells, show (0xffffffff : Header) = BitVec.allOnes 32 from rfl, BitVec.and_allOnes] at h

/-- The mask of a command whose length is an operand hides the length alone. -/
theorem eq_header_of_spells_len {m : String} {op arg : BitVec 8} {hdr : Header}
    (h : OpcodeRow.spells ⟨m, header op arg 0, 0xffff0000⟩ hdr) : hdr = header op arg (lenField hdr) := by
  rw [← header_fields hdr, spells_header, opField_header, argField_header] at h
  obtain ⟨hop, harg, -⟩ := h
  rw [show opField 0xffff0000 = BitVec.allOnes 8 from rfl, BitVec.and_allOnes] at hop
  rw [show argField 0xffff0000 = BitVec.allOnes 8 from rfl, BitVec.and_allOnes] at harg
  rw [← hop, ← harg, header_fields]

theorem arg_of_final_mask : ∀ arg : BitVec 8, arg &&& 0xfe = 0 → arg = 0 ∨ arg = 1 := by decide

/-- The mask of `FINAL` hides bit 16 alone, the end-of-layer request (R74). -/
theorem exists_final_of_spells {m : String} {hdr : Header} (h : OpcodeRow.spells ⟨m, 0x04000000, 0xfffeffff⟩ hdr) :
    ∃ e, hdr = encodeHeader (.final e []) := by
  rw [← header_fields hdr, spells_header] at h
  dsimp only at h
  obtain ⟨hop, harg, hlen⟩ := h
  rw [show opField 0xfffeffff = BitVec.allOnes 8 from rfl, BitVec.and_allOnes] at hop
  rw [show lenField 0xfffeffff = BitVec.allOnes 16 from rfl, BitVec.and_allOnes] at hlen
  rw [show argField 0xfffeffff = 0xfe by decide, show argField 0x04000000 = 0 by decide] at harg
  rw [← header_fields hdr, hop, hlen]
  obtain h0 | h1 := arg_of_final_mask _ harg
  · exact ⟨false, by rw [h0]; decide⟩
  · exact ⟨true, by rw [h1]; decide⟩

/-- A header that a row spells is the header of an instruction of that row. -/
theorem exists_encode_of_spells {r : OpcodeRow} {hdr : Header} (hr : r ∈ opcodeRows) (h : r.spells hdr)
    (p : List Byte) : ∃ i, encode i = ⟨hdr, p⟩ ∧ rowOf i = r := by
  simp only [opcodeRows, List.mem_cons, List.not_mem_nil, or_false] at hr
  obtain rfl | rfl | rfl | rfl | rfl | rfl | rfl | rfl | rfl | rfl | rfl | rfl := hr
  · exact ⟨.setpDlen p, eq_of_spells_full h ▸ rfl, rfl⟩
  · exact ⟨.setpKey (lenField hdr) p, congrArg (Command.mk · p) (eq_header_of_spells_len h).symm, rfl⟩
  · exact ⟨.setpSalt (lenField hdr) p, congrArg (Command.mk · p) (eq_header_of_spells_len h).symm, rfl⟩
  · exact ⟨.setpPers (lenField hdr) p, congrArg (Command.mk · p) (eq_header_of_spells_len h).symm, rfl⟩
  · exact ⟨.setpFanout p, eq_of_spells_full h ▸ rfl, rfl⟩
  · exact ⟨.setpDepth p, eq_of_spells_full h ▸ rfl, rfl⟩
  · exact ⟨.setpLeaf p, eq_of_spells_full h ▸ rfl, rfl⟩
  · exact ⟨.setpInner p, eq_of_spells_full h ▸ rfl, rfl⟩
  · exact ⟨.init p, eq_of_spells_full h ▸ rfl, rfl⟩
  · exact ⟨.absorb (lenField hdr) p, congrArg (Command.mk · p) (eq_header_of_spells_len h).symm, rfl⟩
  · obtain ⟨e, rfl⟩ := exists_final_of_spells h
    exact ⟨.final e p, rfl, rfl⟩
  · exact ⟨.dlen p, eq_of_spells_full h ▸ rfl, rfl⟩

/-- An instruction's row is the only one that spells its header, since the header is no other instruction's. -/
theorem eq_rowOf_of_spells {i : Instr} {r : OpcodeRow} (hr : r ∈ opcodeRows) (h : r.spells (encodeHeader i)) :
    r = rowOf i := by
  obtain ⟨j, hj, rfl⟩ := exists_encode_of_spells hr h i.payload
  have hij : decode (encode i) = .ok j := decode_eq_ok_iff.2 hj
  rw [decode_encode] at hij
  rw [Except.ok.inj hij]

/-- A command is rejected exactly when its header matches no row (R72, R76). -/
theorem decode_error_iff (c : Command) : (∃ e, decode c = .error e) ↔ ∀ r ∈ opcodeRows, ¬ r.spells c.hdr := by
  constructor
  · rintro ⟨e, he⟩ r hr h
    obtain ⟨i, hi, -⟩ := exists_encode_of_spells hr h c.payload
    cases he.symm.trans (decode_eq_ok_iff.2 hi)
  · intro hnone
    cases hd : decode c with
    | error e => exact ⟨e, rfl⟩
    | ok i =>
      have hspells := rowOf_spells i
      rw [show encodeHeader i = c.hdr from congrArg Command.hdr (encode_of_decode hd)] at hspells
      exact absurd hspells (hnone _ (rowOf_mem i))

/-! ### The text of a payload -/

/-- A hexadecimal digit is read back, and is no quotation mark (R78). -/
theorem hexDigit_spec : ∀ n : Fin 16, hexValue (hexDigit n) = some n.val ∧ hexDigit n ≠ '"' := by decide

theorem hexValue_hexDigit {n : Nat} (h : n < 16) : hexValue (hexDigit n) = some n := (hexDigit_spec ⟨n, h⟩).1

theorem readHex_hexText (bs : List Byte) : readHex (hexText bs) = some bs := by
  induction bs with
  | nil => rfl
  | cons b bs ih =>
    have hb := b.isLt
    have hsplit : 16 * (b.toNat / 16) + b.toNat % 16 = b.toNat := Nat.div_add_mod b.toNat 16
    simp only [hexText, readHex, hexValue_hexDigit (show b.toNat / 16 < 16 by omega),
      hexValue_hexDigit (show b.toNat % 16 < 16 by omega), ih, hsplit, BitVec.ofNat_toNat, BitVec.setWidth_eq]

theorem readPayload_hexText {bs : List Byte} (h : bs ≠ []) : readPayload (hexText bs) = some bs := by
  obtain ⟨b, bs, rfl⟩ := List.exists_cons_of_ne_nil h
  rw [readPayload, if_neg (by simp [hexText]), if_neg (by simp [hexText]), readHex_hexText]

/-- No hexadecimal text begins with a quotation mark. -/
theorem readAbsorbed_hexText {bs : List Byte} (h : bs ≠ []) : readAbsorbed (hexText bs) = some bs := by
  obtain ⟨b, bs', rfl⟩ := List.exists_cons_of_ne_nil h
  have hb := b.isLt
  have hne : hexDigit (b.toNat / 16) ≠ '"' := (hexDigit_spec ⟨b.toNat / 16, by omega⟩).2
  rw [← readPayload_hexText h]
  exact readAbsorbed.eq_2 _ fun cs hcs => hne (List.cons.inj hcs).1

theorem counted_some {make : BitVec 16 → List Byte → Instr} {bs : List Byte} (h : bs.length ≤ 65535) :
    counted make (some bs) = some (make (BitVec.ofNat 16 bs.length) bs) := if_pos h

/-! ### The step on the command port -/

theorem step_idle {s : State} (h : s.cmds = []) : step s = .next s := by
  simp only [step, State.fetch, h]

/-- A command that decodes is executed on the state without it (00_scope.md R7). -/
theorem step_executes {s : State} {c : Command} {rest : List Command} {i : Instr} (hc : s.cmds = c :: rest)
    (hd : decode c = .ok i) : step s = exec i { s with cmds := rest } := by
  simp only [step, State.fetch, hc, hd]

theorem step_reserved {s : State} {c : Command} {rest : List Command} {e : Reserved} (hc : s.cmds = c :: rest)
    (hd : decode c = .error e) : step s = .next (failed { s with cmds := rest } .useReserved) := by
  simp only [step, State.fetch, hc, hd, answerReserved, raise_eq_failed]

/-- A table word decodes as its command does, the bytes carrying the command whole. -/
theorem decode_of_decodeTableWord {nbits w : Nat} {i : Instr} (h : decodeTableWord nbits w = some i) :
    decode (tableCommand nbits w) = .ok i := by
  simp only [decodeTableWord, decodeBytes, commandOfBytes_commandBytes] at h
  cases hd : decode (tableCommand nbits w) with
  | error e => simp [hd] at h
  | ok j => simpa [hd] using h

/-! ### The obligations -/

/-- Settles O1: the bytes carry the command whole, and the command decodes by `decode_encode`. -/
theorem decodeOfEncodedBytes : Obligations.DecodeOfEncodedBytes := by
  unfold Obligations.DecodeOfEncodedBytes
  intro i
  simp only [decodeBytes, encodeBytes, commandOfBytes_commandBytes, decode_encode]

/-- Settles O2, arm by arm of the decoder. -/
theorem encodeOfDecodedCommand : Obligations.EncodeOfDecodedCommand := by
  unfold Obligations.EncodeOfDecodedCommand
  exact fun _ _ => encode_of_decode

/-- Settles O3: the row of the instruction spells the header, no other does, and without a row there is no
instruction. -/
theorem decoderAgreesWithTheMatchMaskTable : Obligations.DecoderAgreesWithTheMatchMaskTable := by
  unfold Obligations.DecoderAgreesWithTheMatchMaskTable
  refine ⟨fun c i h => ?_, decode_error_iff⟩
  obtain rfl := encode_of_decode h
  exact ⟨rowOf i, rowOf_mem i, rowOf_spells i, rowOf_mnemonic i, fun _ => eq_rowOf_of_spells⟩

/-- Settles O4: each header is evaluated. -/
theorem workedHeadersDecode : Obligations.WorkedHeadersDecode := by
  unfold Obligations.WorkedHeadersDecode
  intro p
  simp [decode, decodeSetp, fixedLen, opField, argField, lenField]

/-- Settles O5: the word before the space selects the command, and its operand is read back by `readHex_hexText`. -/
theorem assemblerReadsHexadecimalPayloads : Obligations.AssemblerReadsHexadecimalPayloads := by
  unfold Obligations.AssemblerReadsHexadecimalPayloads
  refine ⟨fun bs hne hl => ⟨?_, ?_, ?_, ?_⟩, rfl, rfl, rfl, rfl⟩
  · change counted .setpKey (readPayload (hexText bs)) = _
    rw [readPayload_hexText hne, counted_some hl]
  · change counted .setpSalt (readPayload (hexText bs)) = _
    rw [readPayload_hexText hne, counted_some hl]
  · change counted .setpPers (readPayload (hexText bs)) = _
    rw [readPayload_hexText hne, counted_some hl]
  · change counted .absorb (readAbsorbed (hexText bs)) = _
    rw [readAbsorbed_hexText hne, counted_some hl]

/-- Settles O6: `step_executes`. -/
theorem stepExecutesTheOldestCommand : Obligations.StepExecutesTheOldestCommand := by
  unfold Obligations.StepExecutesTheOldestCommand
  exact fun _ _ _ _ => step_executes

/-- Settles O7: a header that matches no row is rejected by the decoder, and a rejected header is answered. -/
theorem reservedHeaderChangesNothing : Obligations.ReservedHeaderChangesNothing := by
  unfold Obligations.ReservedHeaderChangesNothing
  refine ⟨rfl, fun s c rest hc hnone => ?_⟩
  obtain ⟨e, he⟩ := (decode_error_iff c).2 hnone
  exact step_reserved hc he

/-- Settles O8: `step_idle`. -/
theorem idleCoreKeepsItsState : Obligations.IdleCoreKeepsItsState := by
  unfold Obligations.IdleCoreKeepsItsState
  exact fun _ => step_idle

/-- Settles O9: the word placed first on the port is the oldest command, and taking it gives the state back. -/
theorem issuedTableWordIsExecuted : Obligations.IssuedTableWordIsExecuted := by
  unfold Obligations.IssuedTableWordIsExecuted
  intro s nbits w i h
  exact step_executes (s := s.withFetchWord nbits w) rfl (decode_of_decodeTableWord h)

end Sys2Proof
end

section
/-! The invariant of reachable states: what each operation of a step does to it (10_state.md R38). -/

namespace Sys2Proof.Machine

/-! ### Item 2 of the invariant -/

/-- Item 2 of 10_state.md R38: the part of the invariant that speaks of the parameter registers alone. -/
structure State.ParamInv (s : State) : Prop where
  dlen_le : s.p_dlen.toNat ≤ 64
  klen_le : s.p_klen.toNat ≤ 64
  inner_le : s.p_inner.toNat ≤ 64
  key_zero : ∀ j : Fin 64, s.p_klen.toNat ≤ j.val → s.p_key[j] = 0
  salt_zero : s.p_salt_en = false → s.p_salt = Vector.replicate 16 0
  pers_zero : s.p_pers_en = false → s.p_pers = Vector.replicate 16 0

variable {s t : State}

theorem State.Inv.paramInv (h : s.Inv) : s.ParamInv :=
  ⟨h.dlen_le, h.klen_le, h.inner_le, h.key_zero, h.salt_zero, h.pers_zero⟩

/-! ### What a legal `SETP` command writes -/

theorem dlen_range_of_dlenError {n : Byte} (h : dlenError n = none) : 1 ≤ n.toNat ∧ n.toNat ≤ 64 := by
  simpa [dlenError] using h

theorem inner_le_of_innerError {n : Byte} (h : innerError n = none) : n.toNat ≤ 64 := by
  simpa [innerError] using h

theorem klen_le_of_klenError {len : Nat} (h : klenError len = none) : len ≤ 64 := by
  simpa [klenError] using h

/-- A key length that passed its check fits the 7-bit register (R94). -/
theorem toNat_setWidth_klen {len : BitVec 16} (h : len.toNat ≤ 64) : (len.setWidth 7).toNat = len.toNat := by
  rw [BitVec.toNat_setWidth]
  omega

@[simp] theorem bytesOperand_getElem (n : Nat) (p : List Byte) (j : Fin n) :
    (bytesOperand n p)[j] = p.getD j.val 0 :=
  Vector.getElem_ofFn j.isLt

/-- A register of bytes is zero at the positions the payload does not reach (R94). -/
theorem bytesOperand_getElem_of_length_le {n : Nat} {p : List Byte} {j : Fin n} (h : p.length ≤ j.val) :
    (bytesOperand n p)[j] = 0 := by
  rw [bytesOperand_getElem, List.getD_eq_default _ _ h]

/-- An absent salt or personalization is zero (R95, R96). -/
theorem bytesOperand_nil (n : Nat) : bytesOperand n [] = Vector.replicate n 0 := by
  ext j hj
  simp [bytesOperand]

theorem bytesOperand_of_absent {n : Nat} {len : BitVec 16} {p : List Byte} (hl : p.length = len.toNat)
    (h : decide (len ≠ 0) = false) : bytesOperand n p = Vector.replicate n 0 := by
  have hlen : len = 0 := by simpa using h
  subst hlen
  rw [List.length_eq_zero_iff.1 hl, bytesOperand_nil]

/-- A `SETP` command writes a register value in its range. -/
theorem Written.paramInv {i : Instr} (hw : Written s t i) (h : s.ParamInv) : t.ParamInv := by
  cases i with
  | setpDlen p =>
    obtain ⟨-, hn, rfl⟩ := hw
    exact { h with dlen_le := (dlen_range_of_dlenError hn).2 }
  | setpKey len p =>
    obtain ⟨hl, hk, rfl⟩ := hw
    have hle := klen_le_of_klenError hk
    have hklen := toNat_setWidth_klen hle
    exact { h with
      klen_le := hklen.trans_le hle
      key_zero := fun j hj => bytesOperand_getElem_of_length_le (hl.trans_le (hklen ▸ hj)) }
  | setpSalt len p =>
    obtain ⟨hl, -, rfl⟩ := hw
    exact { h with salt_zero := bytesOperand_of_absent hl }
  | setpPers len p =>
    obtain ⟨hl, -, rfl⟩ := hw
    exact { h with pers_zero := bytesOperand_of_absent hl }
  | setpFanout p | setpDepth p | setpLeaf p =>
    obtain ⟨-, rfl⟩ := hw
    exact { h with }
  | setpInner p =>
    obtain ⟨-, hn, rfl⟩ := hw
    exact { h with inner_le := inner_le_of_innerError hn }
  | init p | absorb len d | final e p | dlen p => exact hw.elim

/-! ### The operations of a step -/

/-- The invariant does not speak of the ports. -/
theorem State.Inv.withPorts (h : s.Inv) (cmds : List Command) (resp : Option Response) :
    State.Inv { s with cmds := cmds, resp := resp } :=
  { h with }

theorem State.Inv.respond (h : s.Inv) (data : List Byte) : (s.respond data).Inv := h.withPorts _ _

theorem State.Inv.failed (h : s.Inv) (code : Status) : (failed s code).Inv := h.withPorts _ _

theorem State.ParamInv.wipe (h : s.ParamInv) : s.wipe.Inv :=
  { h with
    buf_wf := rfl
    buf_len_lt := Nat.zero_le _
    initialized := nofun
    tail_zero := nofun
    uninitialized := fun _ => ⟨rfl, rfl, rfl, rfl, rfl, fun _ => rfl, rfl⟩
    closed := nofun
    flags := ⟨.inl rfl, .inl rfl⟩ }

/-- After an initialization the buffer is zero beyond the key (R131). -/
theorem read_doInit_of_le {a : Nat} (h : s.p_klen.toNat ≤ a) : s.doInit.buf.read a = 0 := by
  rw [State.doInit_buf, Memory.read_writeBytes rfl 0 _ (by simp), if_neg (by simp; omega), Memory.read_zeroed]

theorem State.ParamInv.doInit (h : s.ParamInv) (hv : s.Valid) : s.doInit.Inv :=
  { h with
    buf_wf := wf_doInit s
    buf_len_lt := by
      have := h.klen_le
      simp only [State.doInit_buf_len, toNat_keyFill]
      omega
    initialized := fun _ => ⟨hv.dlen_min, rfl, rfl, rfl⟩
    tail_zero := fun _ j hj => read_doInit_of_le (by simpa using hj)
    uninitialized := nofun
    closed := nofun
    flags := ⟨.inl rfl, .inl rfl⟩ }

theorem State.Inv.openHash (h : s.Inv) (ho : openHash s = .ok t) : t.Inv ∧ t.lc = .initialized := by
  obtain ⟨hl, rfl⟩ | ⟨-, hv, rfl⟩ := openHash_ok ho
  · exact ⟨h, hl⟩
  · exact ⟨h.paramInv.doInit hv, rfl⟩

/-- A byte that does not fill the buffer: it is the last that is not zero (R134). -/
theorem State.Inv.pushByte (h : s.Inv) (hl : s.lc = .initialized) (b : Byte) (hb : s.buf_len.toNat < 127) :
    (s.pushByte b).Inv := by
  have hfill := pushByte_fill b (Nat.le_of_lt hb)
  exact { h with
    buf_wf := Memory.wf_write h.buf_wf b (show s.buf_len.toNat < 128 by omega)
    buf_len_lt := by omega
    tail_zero := fun _ j hj => by
      rw [State.pushByte_buf, Memory.read_write h.buf_wf, if_neg (by omega)]
      exact h.tail_zero hl j (by omega)
    uninitialized := fun hu => by simp [hl] at hu }

/-- A full block: the count grows by 128 and the buffer is empty (R134). -/
theorem State.Inv.pushByte_flushBlock (h : s.Inv) (hl : s.lc = .initialized) (b : Byte) :
    (s.pushByte b).flushBlock.Inv := by
  obtain ⟨hdlen, hf0, hf1, hcount⟩ := h.initialized hl
  exact { h with
    buf_wf := rfl
    buf_len_lt := Nat.zero_le _
    initialized := fun _ => ⟨hdlen, hf0, hf1, by simp; omega⟩
    tail_zero := fun _ _ _ => rfl
    uninitialized := fun hu => by simp [hl] at hu
    closed := fun hc => by simp [hl] at hc }

theorem State.Inv.absorbByte (h : s.Inv) (hl : s.lc = .initialized) {b : Byte} (hb : absorbByte b s = .ok t) :
    t.Inv := by
  obtain ⟨hlt, hok⟩ | ⟨-, hok⟩ | ⟨-, hfault⟩ := absorbByte_cases b s
  · cases hok.symm.trans hb
    exact h.pushByte hl b hlt
  · cases hok.symm.trans hb
    exact h.pushByte_flushBlock hl b
  · cases hfault.symm.trans hb

theorem State.Inv.absorbBytes {bs : List Byte} (h : s.Inv) (hl : s.lc = .initialized)
    (hb : absorbBytes bs s = .ok t) : t.Inv := by
  induction bs generalizing s with
  | nil =>
    cases hb
    exact h
  | cons b bs ih =>
    rw [Machine.absorbBytes] at hb
    cases hu : Machine.absorbByte b s with
    | error f => simp [hu] at hb
    | ok u =>
      rw [hu] at hb
      exact ih (h.absorbByte hl hu) ((absorbByte_frame hu).lc.trans hl) hb

theorem layerFlag_zero_or_ones (e : Bool) : layerFlag e = 0 ∨ layerFlag e = 0xffffffffffffffff := by
  cases e
  · exact .inl rfl
  · exact .inr rfl

theorem State.Inv.finalize (h : s.Inv) (hl : s.lc = .initialized) (e : Bool) : (s.finalize e).Inv := by
  obtain ⟨hdlen, -⟩ := h.initialized hl
  exact { h with
    buf_wf := Memory.wf_zeroFrom h.buf_wf _
    initialized := nofun
    tail_zero := nofun
    uninitialized := nofun
    closed := fun _ => ⟨rfl, layerFlag_zero_or_ones e, hdlen⟩
    flags := ⟨.inr rfl, layerFlag_zero_or_ones e⟩ }

/-- Every command that answers keeps the invariant. -/
theorem State.Inv.exec {i : Instr} (h : s.Inv) (he : exec i s = .next t) : t.Inv := by
  cases exec_done he with
  | fail _ code _ ht => exact ht ▸ h.failed code
  | setp _ w hw ht => exact ht ▸ (hw.paramInv h.paramInv).wipe.respond []
  | init p _ hv ht => exact ht ▸ (h.paramInv.doInit hv).respond []
  | absorb len d o u _ ho ha ht =>
    obtain ⟨hinv, hl⟩ := h.openHash ho
    exact ht ▸ (hinv.absorbBytes hl ha).respond []
  | final e p o _ ho ht =>
    obtain ⟨hinv, hl⟩ := h.openHash ho
    exact ht ▸ (hinv.finalize hl e).respond _
  | dlen p _ ht => exact ht ▸ h.respond _

/-! ### The obligations -/

/-- Settles O46: an idle step and a reserved header leave all but the ports, and a command keeps the invariant by
`State.Inv.exec`. -/
theorem stepKeepsTheInvariant : Obligations.StepKeepsTheInvariant := by
  unfold Obligations.StepKeepsTheInvariant
  intro s t h hs
  obtain ⟨-, rfl⟩ | ⟨c, rest, -, ⟨r, -, rfl⟩ | ⟨i, -, he⟩⟩ := step_done hs
  · exact h
  · exact h.withPorts rest _
  · exact (h.withPorts rest s.resp).exec he

/-- Settles O45: at reset everything but fan-out and depth is zero. -/
theorem resetMeetsTheInvariant : Obligations.ResetMeetsTheInvariant := by
  unfold Obligations.ResetMeetsTheInvariant
  have hparams : State.reset.ParamInv :=
    ⟨by decide, by decide, by decide, fun j _ => Vector.getElem_replicate j.isLt, fun _ => rfl, fun _ => rfl⟩
  exact hparams.wipe

end Sys2Proof.Machine
end

section
/-! What a command answers and what it leaves: the status and the data, the lifecycle, the parameter registers, and that
every command is answered (30_encoding.md R75, 60_exceptions.md R159 to R163). -/

namespace Sys2Proof.Machine

variable {i : Instr} {s t w : State} {r : Response}

/-! ### What a success answers -/

/-- The data of a command that succeeds (30_encoding.md R75). -/
def OkData (s : State) (data : List Byte) : Instr → Prop
  | .final _ _ => data.length = min s.p_dlen.toNat 64
  | .dlen _ => data = [s.p_dlen]
  | _ => data = []

/-- The lifecycle state a command that succeeds leaves (42_streaming_digest.md R130). -/
def lcAfter (s : State) : Instr → Lifecycle
  | .init _ | .absorb _ _ => .initialized
  | .final _ _ => .closed
  | .dlen _ => s.lc
  | _ => .uninitialized

theorem OkData.length_le {data : List Byte} (h : OkData s data i) : data.length ≤ 64 := by
  cases i with
  | final e p => exact h.trans_le (min_le_right _ _)
  | dlen p => exact h ▸ Nat.le_of_ble_eq_true rfl
  | _ => exact h ▸ Nat.zero_le _

theorem Written.okData (hw : Written s w i) : OkData s [] i := by
  cases i with
  | final e p | dlen p => exact hw.elim
  | _ => rfl

theorem Written.lcAfter (hw : Written s w i) : lcAfter s i = .uninitialized := by
  cases i with
  | init p | absorb len d | final e p | dlen p => exact hw.elim
  | _ => rfl

theorem Written.cmds (hw : Written s w i) : w.cmds = s.cmds := by
  cases i with
  | setpFanout p | setpDepth p | setpLeaf p =>
    obtain ⟨-, rfl⟩ := hw
    rfl
  | init p | absorb len d | final e p | dlen p => exact hw.elim
  | _ =>
    obtain ⟨-, -, rfl⟩ := hw
    rfl

/-- A core that is opened is initialized, its parameters and its command port as they were. -/
theorem openHash_frame {o : State} (ho : openHash s = .ok o) :
    o.lc = .initialized ∧ SameParams s o ∧ o.cmds = s.cmds := by
  obtain ⟨hl, rfl⟩ | ⟨-, -, rfl⟩ := openHash_ok ho
  · exact ⟨hl, SameParams.refl o, rfl⟩
  · exact ⟨rfl, ⟨rfl, rfl, rfl, rfl, rfl, rfl, rfl, rfl, rfl, rfl, rfl⟩, rfl⟩

/-- A command that answered failed with nothing changed, or succeeded with its data and its lifecycle state. -/
theorem Done.failed_or_ok (h : Done s t i) :
    (∃ code, code ≠ .ok ∧ t = failed s code) ∨
      ∃ data, t.resp = some ⟨.ok, data⟩ ∧ OkData s data i ∧ t.lc = lcAfter s i := by
  cases h with
  | fail _ code hc ht => exact .inl ⟨code, hc, ht⟩
  | setp _ w hw ht => exact .inr ⟨[], ht ▸ rfl, hw.okData, ht ▸ hw.lcAfter.symm⟩
  | init p _ _ ht => exact .inr ⟨[], ht ▸ rfl, rfl, ht ▸ rfl⟩
  | absorb len d o u _ ho ha ht =>
    exact .inr ⟨[], ht ▸ rfl, rfl, ht ▸ (absorbBytes_frame ha).lc.trans (openHash_frame ho).1⟩
  | final e p o _ ho ht =>
    subst ht
    refine .inr ⟨_, rfl, ?_, rfl⟩
    rw [OkData, length_digestBytes, State.finalize_p_dlen, (openHash_frame ho).2.1.dlen]
  | dlen p _ ht => exact .inr ⟨[s.p_dlen], ht ▸ rfl, rfl, ht ▸ rfl⟩

theorem eq_failed_of_status_ne_ok (he : exec i s = .next t) (hr : t.resp = some r) (hs : r.status ≠ .ok) :
    t = failed s r.status := by
  obtain ⟨code, -, rfl⟩ | ⟨data, hok, -⟩ := (exec_done he).failed_or_ok
  · cases hr
    rfl
  · cases hok.symm.trans hr
    exact absurd rfl hs

theorem okData_of_status_ok (he : exec i s = .next t) (hr : t.resp = some r) (hs : r.status = .ok) :
    OkData s r.data i ∧ t.lc = lcAfter s i := by
  obtain ⟨code, hc, rfl⟩ | ⟨data, hok, hdata⟩ := (exec_done he).failed_or_ok
  · cases hr
    exact absurd hs hc
  · cases hok.symm.trans hr
    exact hdata

/-- A closed core is not opened (42_streaming_digest.md R130). -/
theorem status_ne_ok_of_closed (hc : s.lc = .closed) (hi : (∃ len d, i = .absorb len d) ∨ ∃ e p, i = .final e p)
    (he : exec i s = .next t) (hr : t.resp = some r) : r.status ≠ .ok := by
  by_cases hl : i.LengthAgrees
  · have hfail : exec i s = .next (failed s .useClosed) := by
      obtain ⟨len, d, rfl⟩ | ⟨e, p, rfl⟩ := hi
      · exact exec_absorb_unopened hl (openHash_closed hc)
      · exact exec_final_unopened e hl (openHash_closed hc)
    cases hfail.symm.trans he
    cases hr
    exact nofun
  · cases (exec_wrongLength hl s).symm.trans he
    cases hr
    exact nofun

/-! ### The parameters and the command port -/

/-- A command keeps the parameter registers, or it is a `SETP` command that wrote one (10_state.md R37). -/
theorem Done.sameParams_or_written (h : Done s t i) :
    SameParams s t ∨ ∃ w, Written s w i ∧ t = w.wipe.respond [] := by
  cases h with
  | setp _ w hw ht => exact .inr ⟨w, hw, ht⟩
  | fail _ code _ ht => exact .inl (ht ▸ ⟨rfl, rfl, rfl, rfl, rfl, rfl, rfl, rfl, rfl, rfl, rfl⟩)
  | init p _ _ ht => exact .inl (ht ▸ ⟨rfl, rfl, rfl, rfl, rfl, rfl, rfl, rfl, rfl, rfl, rfl⟩)
  | absorb len d o u _ ho ha ht =>
    have hparams := (openHash_frame ho).2.1.trans (absorbBytes_frame ha).params
    exact .inl (ht ▸ { hparams with })
  | final e p o _ ho ht =>
    have hparams := (openHash_frame ho).2.1
    exact .inl (ht ▸ { hparams with })
  | dlen p _ ht => exact .inl (ht ▸ ⟨rfl, rfl, rfl, rfl, rfl, rfl, rfl, rfl, rfl, rfl, rfl⟩)

theorem Done.cmds (h : Done s t i) : t.cmds = s.cmds := by
  cases h with
  | setp _ w hw ht => exact ht ▸ hw.cmds
  | absorb len d o u _ ho ha ht => exact ht ▸ (absorbBytes_frame ha).cmds.trans (openHash_frame ho).2.2
  | final e p o _ ho ht => exact ht ▸ (openHash_frame ho).2.2
  | fail _ _ _ ht | init _ _ _ ht | dlen _ _ ht => exact ht ▸ rfl

/-- `SETP.DLEN` stores a length of 1 or more; no other command writes the digest length (R93). -/
theorem Written.p_dlen_ne_zero (hw : Written s w i) (h : s.p_dlen ≠ 0) : w.p_dlen ≠ 0 := by
  cases i with
  | setpDlen p =>
    obtain ⟨-, hn, rfl⟩ := hw
    have hmin := (dlen_range_of_dlenError hn).1
    intro hz
    rw [show scalarOperand p = 0 from hz] at hmin
    exact absurd hmin (by decide)
  | setpKey len p | setpSalt len p | setpPers len p | setpInner p =>
    obtain ⟨-, -, rfl⟩ := hw
    exact h
  | setpFanout p | setpDepth p | setpLeaf p =>
    obtain ⟨-, rfl⟩ := hw
    exact h
  | init p | absorb len d | final e p | dlen p => exact hw.elim

theorem exec_p_dlen_ne_zero (he : exec i s = .next t) (h : s.p_dlen ≠ 0) : t.p_dlen ≠ 0 := by
  obtain hparams | ⟨w, hw, rfl⟩ := (exec_done he).sameParams_or_written
  · exact hparams.dlen ▸ h
  · exact hw.p_dlen_ne_zero h

/-! ### The one stop -/

/-- A core that was just initialized has no more than the key pending, so only a fill that was there before is outside
the buffer (log 5). -/
theorem initialized_of_absorb_error {o : State} {d : List Byte} {f : Fault} (ho : openHash s = .ok o)
    (ha : absorbBytes d o = .error f) :
    s.lc = .initialized ∧ 128 ≤ s.buf_len.toNat ∧ f = .bufferOffset s.buf_len.toNat := by
  obtain ⟨hfill, hf⟩ := absorbBytes_error ha
  obtain ⟨hl, rfl⟩ | ⟨-, hv, rfl⟩ := openHash_ok ho
  · exact ⟨hl, hfill, hf⟩
  · have hklen := hv.klen_max
    rw [State.doInit_buf_len, toNat_keyFill] at hfill
    omega

/-- Below a fill of 128 every command answers. -/
theorem exec_answers (i : Instr) (hfill : s.buf_len.toNat ≤ 127) : ∃ t, exec i s = .next t := by
  obtain hnext | ⟨len, d, o, f, -, ho, ha, -⟩ := exec_answers_or_faults i s
  · exact hnext
  · have hout := (initialized_of_absorb_error ho ha).2.1
    omega

/-! ### The obligations -/

/-- Settles O18: `eq_failed_of_status_ne_ok`. -/
theorem failedCommandChangesNothing : Obligations.FailedCommandChangesNothing := by
  unfold Obligations.FailedCommandChangesNothing
  exact fun _ _ _ _ => eq_failed_of_status_ne_ok

/-- Settles O19: a failed command changes the response alone, and no command reads the response. -/
theorem failedCommandLeavesNoTrace : Obligations.FailedCommandLeavesNoTrace := by
  unfold Obligations.FailedCommandLeavesNoTrace
  intro i s t r he hr hs
  have hexec : ∀ j, exec j t = exec j s := fun j => by
    rw [eq_failed_of_status_ne_ok he hr hs, exec_failed]
  exact ⟨(hexec i).trans he, hexec⟩

/-- Settles O21: an error has no data, and the data of a success are `OkData`. -/
theorem responseDataComeFromFinalAndDlenOnly : Obligations.ResponseDataComeFromFinalAndDlenOnly := by
  unfold Obligations.ResponseDataComeFromFinalAndDlenOnly
  refine ⟨⟨rfl, rfl, rfl, rfl, rfl, rfl, rfl, rfl, rfl⟩, fun i s t r hmax he hr => ⟨fun hs => ?_, fun hs hne => ?_,
    fun hs e p hi => ?_, fun hs p hi => ?_⟩⟩
  · have ht := eq_failed_of_status_ne_ok he hr hs
    rw [ht] at hr
    exact congrArg Response.data (Option.some.inj hr).symm
  · have hdata := (okData_of_status_ok he hr hs).1
    cases i with
    | final e p => exact .inl ⟨e, p, rfl, hdata.trans (min_eq_left hmax)⟩
    | dlen p => exact .inr ⟨p, rfl, hdata⟩
    | _ => exact absurd hdata hne
  · subst hi
    exact (okData_of_status_ok he hr hs).1.trans (min_eq_left hmax)
  · subst hi
    exact (okData_of_status_ok he hr hs).1

/-- Settles O22: `exec_answers_or_faults` names the one fault, and `initialized_of_absorb_error` where it can arise. -/
theorem onlyAnOffsetOutsideTheBufferFaults : Obligations.OnlyAnOffsetOutsideTheBufferFaults := by
  unfold Obligations.OnlyAnOffsetOutsideTheBufferFaults
  intro i s
  obtain ⟨t, ht⟩ | ⟨len, d, o, g, rfl, ho, ha, hg⟩ := exec_answers_or_faults i s
  · rw [ht]
    exact ⟨nofun, nofun⟩
  · rw [hg]
    refine ⟨fun f hf => ?_, nofun⟩
    cases hf
    obtain ⟨hl, hfill, hoff⟩ := initialized_of_absorb_error ho ha
    exact ⟨hl, hfill, hoff, len, d, rfl⟩

/-- Settles O42: a failure changes nothing, a success leaves `lcAfter`, and a closed core is not opened. -/
theorem lifecycleTransitions : Obligations.LifecycleTransitions := by
  unfold Obligations.LifecycleTransitions
  refine fun i s t r he hr => ⟨fun hs => ?_, fun hs => ?_, fun hc hi hs => ?_⟩
  · rw [eq_failed_of_status_ne_ok he hr hs]
    rfl
  · rw [(okData_of_status_ok he hr hs).2]
    cases i <;> rfl
  · exact status_ne_ok_of_closed hc hi he hr hs

/-- Settles O43: of the two cases of `Done.sameParams_or_written` the second is a `SETP` command. -/
theorem hashCommandsKeepTheParameters : Obligations.HashCommandsKeepTheParameters := by
  unfold Obligations.HashCommandsKeepTheParameters
  intro i s t he hi
  obtain hparams | ⟨w, hw, -⟩ := (exec_done he).sameParams_or_written
  · exact hparams
  · obtain ⟨p, rfl⟩ | ⟨len, d, rfl⟩ | ⟨e, p, rfl⟩ | ⟨p, rfl⟩ := hi <;> exact hw.elim

/-- Settles O47: the invariant bounds the fill, so the command is answered; no command reads the response. -/
theorem everyCommandIsAnswered : Obligations.EveryCommandIsAnswered := by
  unfold Obligations.EveryCommandIsAnswered
  intro s c rest hinv hc
  cases hd : decode c with
  | error e =>
    exact ⟨_, ⟨.useReserved, []⟩, step_reserved hc hd, rfl, rfl, Nat.zero_le _,
      fun q => step_reserved (s := { s with resp := q }) hc hd⟩
  | ok i =>
    obtain ⟨t, ht⟩ := exec_answers (s := { s with cmds := rest }) i hinv.buf_len_lt
    have hstep : ∀ q, step { s with resp := q } = .next t := fun q =>
      (step_executes (s := { s with resp := q }) hc hd).trans ((exec_resp i { s with cmds := rest } q).trans ht)
    have hdone := exec_done ht
    obtain ⟨code, -, rfl⟩ | ⟨data, hok, hdata, -⟩ := hdone.failed_or_ok
    · exact ⟨_, _, hstep s.resp, rfl, rfl, Nat.zero_le _, hstep⟩
    · exact ⟨t, _, hstep s.resp, hdone.cmds, hok, hdata.length_le, hstep⟩

/-- Settles O48: a step that executes no command keeps the parameters; a command by `exec_p_dlen_ne_zero`. -/
theorem digestLengthStaysSet : Obligations.DigestLengthStaysSet := by
  unfold Obligations.DigestLengthStaysSet
  intro s t h hs
  obtain ⟨-, rfl⟩ | ⟨c, rest, -, ⟨e, -, rfl⟩ | ⟨i, -, he⟩⟩ := step_done hs
  · exact h
  · exact h
  · exact exec_p_dlen_ne_zero he h

end Sys2Proof.Machine
end

section
/-! The `SETP` commands of a byte string and of an unchecked byte (40_config_encoder.md R94 to R98). -/

namespace Sys2Proof.Machine

/-! ### The checks of a length -/

theorem klenError_legal {len : Nat} (h : len ≤ 64) : klenError len = none := if_pos h

theorem klenError_illegal {len : Nat} (h : 64 < len) : klenError len = some .cfgKeylen := if_neg (Nat.not_le.2 h)

theorem saltError_legal {len : Nat} (h : len = 0 ∨ len = 16) : saltError len = none := if_pos h

theorem saltError_illegal {len : Nat} (h0 : len ≠ 0) (h16 : len ≠ 16) : saltError len = some .cfgSalt :=
  if_neg (not_or.2 ⟨h0, h16⟩)

theorem persError_legal {len : Nat} (h : len = 0 ∨ len = 16) : persError len = none := if_pos h

theorem persError_illegal {len : Nat} (h0 : len ≠ 0) (h16 : len ≠ 16) : persError len = some .cfgPers :=
  if_neg (not_or.2 ⟨h0, h16⟩)

/-! ### The stored bytes -/

/-- A register of the payload's own size is the payload (R95, R96). -/
theorem getElem?_eq_bytesOperand {n : Nat} {p : List Byte} (hl : p.length = n) (j : Fin n) :
    p[j.val]? = some (bytesOperand n p)[j] := by
  have hj : j.val < p.length := hl ▸ j.isLt
  rw [bytesOperand_getElem, List.getD_eq_getElem _ _ hj, List.getElem?_eq_getElem hj]

theorem bytesOperand_getElem_dite (n : Nat) (p : List Byte) (j : Fin n) :
    (bytesOperand n p)[j] = if h : j.val < p.length then p[j.val] else 0 := by
  rw [bytesOperand_getElem]
  split
  · next h => exact List.getD_eq_getElem _ _ h
  · next h => exact List.getD_eq_default _ _ (Nat.not_lt.1 h)

/-- The presence bit of a salt or a personalization (R95, R96). -/
theorem decide_len_ne_zero_of_eq {len : BitVec 16} {n : Nat} (h : len.toNat = n) :
    decide (len ≠ 0) = decide (n ≠ 0) := by
  simp [← h, BitVec.toNat_eq]

/-! ### The obligations -/

/-- Settles O11: `setParam` with the bound of R94, at each of its three outcomes. -/
theorem setpKeyChecksStoresAndWipes : Obligations.SetpKeyChecksStoresAndWipes := by
  unfold Obligations.SetpKeyChecksStoresAndWipes
  refine fun s len p => ⟨fun hl => ?_, fun hl hk => ?_, fun hl hk => ?_⟩ <;> rw [exec_setpKey]
  · exact setParam_wrongLength hl _ _ s
  · exact setParam_illegal hl (klenError_illegal hk) _ s
  · obtain ⟨t, ht, hparams, hwiped, hanswer⟩ := setParam_writes_and_wipes (s := s)
      (w := { s with p_klen := len.setWidth 7, p_key := bytesOperand 64 p }) hl (klenError_legal hk) rfl
    have hklen : t.p_klen = len.setWidth 7 := hparams.klen
    have hkey : t.p_key = bytesOperand 64 p := hparams.key
    rw [← hklen, ← hkey] at hparams
    refine ⟨t, ht, ?_, fun j => ?_, hparams, hwiped, hanswer⟩
    · rw [hklen, toNat_setWidth_klen hk]
    · rw [hkey, bytesOperand_getElem_dite]

/-- Settles O12: `setParam` with the two lengths of R95; an absent salt is all zero. -/
theorem setpSaltChecksStoresAndWipes : Obligations.SetpSaltChecksStoresAndWipes := by
  unfold Obligations.SetpSaltChecksStoresAndWipes
  refine fun s len p => ⟨fun hl => ?_, fun hl h0 h16 => ?_, fun hl h16 => ?_, fun hl h0 => ?_⟩ <;> rw [exec_setpSalt]
  · exact setParam_wrongLength hl _ _ s
  · exact setParam_illegal hl (saltError_illegal h0 h16) _ s
  · rw [decide_len_ne_zero_of_eq h16]
    obtain ⟨t, ht, hparams, hwiped, hanswer⟩ := setParam_writes_and_wipes (s := s)
      (w := { s with p_salt_en := true, p_salt := bytesOperand 16 p }) hl (saltError_legal (.inr h16)) rfl
    have hreg : t.p_salt = bytesOperand 16 p := hparams.salt
    rw [← hreg] at hparams
    refine ⟨t, ht, hparams.salt_en, fun j => ?_, hparams, hwiped, hanswer⟩
    rw [hreg, getElem?_eq_bytesOperand (hl.trans h16)]
  · rw [decide_len_ne_zero_of_eq h0]
    obtain ⟨t, ht, hparams, hwiped, hanswer⟩ := setParam_writes_and_wipes (s := s)
      (w := { s with p_salt_en := false, p_salt := bytesOperand 16 p }) hl (saltError_legal (.inl h0)) rfl
    have hreg : t.p_salt = bytesOperand 16 p := hparams.salt
    rw [← hreg] at hparams
    refine ⟨t, ht, fun j => ?_, hparams, hwiped, hanswer⟩
    rw [hreg, bytesOperand_getElem_of_length_le ((hl.trans h0).trans_le (Nat.zero_le _))]

/-- Settles O13: `setParam` with the two lengths of R96; an absent personalization is
all zero. -/
theorem setpPersChecksStoresAndWipes : Obligations.SetpPersChecksStoresAndWipes := by
  unfold Obligations.SetpPersChecksStoresAndWipes
  refine fun s len p => ⟨fun hl => ?_, fun hl h0 h16 => ?_, fun hl h16 => ?_, fun hl h0 => ?_⟩ <;> rw [exec_setpPers]
  · exact setParam_wrongLength hl _ _ s
  · exact setParam_illegal hl (persError_illegal h0 h16) _ s
  · rw [decide_len_ne_zero_of_eq h16]
    obtain ⟨t, ht, hparams, hwiped, hanswer⟩ := setParam_writes_and_wipes (s := s)
      (w := { s with p_pers_en := true, p_pers := bytesOperand 16 p }) hl (persError_legal (.inr h16)) rfl
    have hreg : t.p_pers = bytesOperand 16 p := hparams.pers
    rw [← hreg] at hparams
    refine ⟨t, ht, hparams.pers_en, fun j => ?_, hparams, hwiped, hanswer⟩
    rw [hreg, getElem?_eq_bytesOperand (hl.trans h16)]
  · rw [decide_len_ne_zero_of_eq h0]
    obtain ⟨t, ht, hparams, hwiped, hanswer⟩ := setParam_writes_and_wipes (s := s)
      (w := { s with p_pers_en := false, p_pers := bytesOperand 16 p }) hl (persError_legal (.inl h0)) rfl
    have hreg : t.p_pers = bytesOperand 16 p := hparams.pers
    rw [← hreg] at hparams
    refine ⟨t, ht, fun j => ?_, hparams, hwiped, hanswer⟩
    rw [hreg, bytesOperand_getElem_of_length_le ((hl.trans h0).trans_le (Nat.zero_le _))]

/-- Settles O14: `setParam` without a value check, for both registers. -/
theorem setpFanoutAndDepthStoreAndWipe : Obligations.SetpFanoutAndDepthStoreAndWipe := by
  unfold Obligations.SetpFanoutAndDepthStoreAndWipe
  refine fun s => ⟨fun p hl => ⟨?_, ?_⟩, fun n => ⟨?_, ?_⟩⟩
  · exact (exec_setpFanout p s).trans (setParam_wrongLength hl _ _ s)
  · exact (exec_setpDepth p s).trans (setParam_wrongLength hl _ _ s)
  · exact setParam_writes_and_wipes (p := [n]) (n := 1) rfl rfl rfl
  · exact setParam_writes_and_wipes (p := [n]) (n := 1) rfl rfl rfl

end Sys2Proof.Machine
end

section
/-! The parameter block and the initialization, explicit and implicit (40_config_encoder.md R90, R91,
42_streaming_digest.md R131, R132). -/

namespace Sys2Proof.Machine

/-! ### The parameter block -/

/-- The number of a concatenation. -/
theorem toNat_append_eq_add {m n : Nat} (x : BitVec m) (y : BitVec n) :
    (x ++ y).toNat = y.toNat + x.toNat * 2 ^ n := by
  rw [BitVec.toNat_append, ← Nat.shiftLeft_add_eq_or_of_lt y.isLt, Nat.shiftLeft_eq, Nat.add_comm]

theorem toNat_pblock0 (s : State) :
    (pblock0 s).toNat = s.p_dlen.toNat + s.p_klen.toNat * 2 ^ 8 + s.p_fanout.toNat * 2 ^ 16 +
      s.p_depth.toNat * 2 ^ 24 + s.p_leaf.toNat * 2 ^ 32 := by
  have hk : (s.p_klen.setWidth 8).toNat = s.p_klen.toNat := toNat_keyFill s.p_klen
  simp only [pblock0, toNat_append_eq_add, hk]
  ring

theorem toNat_pblock2 (s : State) : (pblock2 s).toNat = s.p_inner.toNat * 2 ^ 8 := by
  simp only [pblock2, toNat_append_eq_add, BitVec.ofNat_eq_ofNat, BitVec.toNat_ofNat]
  omega

/-- The bytes of the word of the first eight bytes of a register (R90). -/
theorem extractLsb'_le64_take (v : Vector Byte 16) (k : Fin 8) :
    (le64 (v.toList.take 8)).extractLsb' (8 * k.val) 8 = v[k.val] := by
  rw [extractLsb'_le64 _ k.val (by simp) k.isLt, List.getElem_take, Vector.getElem_toList]

theorem extractLsb'_le64_drop (v : Vector Byte 16) (k : Fin 8) :
    (le64 (v.toList.drop 8)).extractLsb' (8 * k.val) 8 = v[8 + k.val] := by
  rw [extractLsb'_le64 _ k.val (by simp) k.isLt, List.getElem_drop, Vector.getElem_toList]

/-! ### Validation -/

section
variable {s : State}

theorem firstInvalid_dlen (h : s.p_dlen.toNat < 1 ∨ 64 < s.p_dlen.toNat) : firstInvalid s = some .cfgDlen := by
  rw [firstInvalid, dlenError_illegal h]
  rfl

theorem firstInvalid_klen (hmin : 1 ≤ s.p_dlen.toNat) (hmax : s.p_dlen.toNat ≤ 64) (h : 64 < s.p_klen.toNat) :
    firstInvalid s = some .cfgKeylen := by
  rw [firstInvalid, dlenError_legal hmin hmax, klenError_illegal h]
  rfl

theorem firstInvalid_inner (hmin : 1 ≤ s.p_dlen.toNat) (hmax : s.p_dlen.toNat ≤ 64) (hk : s.p_klen.toNat ≤ 64)
    (h : 64 < s.p_inner.toNat) : firstInvalid s = some .cfgInner := by
  rw [firstInvalid, dlenError_legal hmin hmax, klenError_legal hk, innerError_illegal h]
  rfl

/-- A command that initializes, `INIT` in every state and `ABSORB` and `FINAL` on an uninitialized core, raises what
`VALID` finds (R132). -/
theorem exec_eq_failed_of_firstInvalid {i : Instr} {code : Status} (hl : i.LengthAgrees)
    (hi : (∃ p, i = .init p) ∨ (s.lc = .uninitialized ∧ ((∃ len d, i = .absorb len d) ∨ ∃ e p, i = .final e p)))
    (h : firstInvalid s = some code) : exec i s = .next (failed s code) := by
  obtain ⟨p, rfl⟩ | ⟨hu, ⟨len, d, rfl⟩ | ⟨e, p, rfl⟩⟩ := hi
  · exact exec_init_invalid hl h
  · exact exec_absorb_unopened hl (openHash_invalid hu h)
  · exact exec_final_unopened e hl (openHash_invalid hu h)

/-! ### Initialization -/

theorem doInit_h_getElem (i : Fin 8) : s.doInit.h[i] = iv[i] ^^^ (pblock s)[i] :=
  Vector.getElem_ofFn i.isLt

/-- The key bytes stand at the start of the buffer (R131). -/
theorem read_doInit_key (j : Fin 64) (hj : j.val < s.p_klen.toNat) : s.doInit.buf.read j.val = s.p_key[j] := by
  have hlen : j.val < (keyBytes s).length := by
    rw [length_keyBytes]
    omega
  rw [State.doInit_buf, Memory.read_writeBytes rfl 0 _ (by simp), if_pos (by omega), Nat.sub_zero,
    List.getD_eq_getElem _ _ hlen]
  simp [keyBytes]

end

/-! ### The obligations -/

/-- Settles O23: the concatenations as sums, the byte registers by the bytes of their words; the other two words are
zero by definition. -/
theorem parameterBlockLayout : Obligations.ParameterBlockLayout := by
  unfold Obligations.ParameterBlockLayout
  exact fun s => ⟨toNat_pblock0 s, rfl, toNat_pblock2 s, rfl, extractLsb'_le64_take _, extractLsb'_le64_drop _,
    extractLsb'_le64_take _, extractLsb'_le64_drop _⟩

/-- Settles O24: the state `INIT` leaves is `doInit`, answered. -/
theorem initSeedsTheHash : Obligations.InitSeedsTheHash := by
  unfold Obligations.InitSeedsTheHash
  exact fun s hv => ⟨_, exec_init_valid hv, rfl, doInit_h_getElem, rfl, rfl, rfl, rfl, read_doInit_key,
    fun _ => read_doInit_of_le, toNat_keyFill s.p_klen, ⟨rfl, rfl, rfl, rfl, rfl, rfl, rfl, rfl, rfl, rfl, rfl⟩,
    ⟨rfl, rfl⟩⟩

/-- Settles O25: the conditions of R91 in their order. -/
theorem illegalParametersStopInitialization : Obligations.IllegalParametersStopInitialization := by
  unfold Obligations.IllegalParametersStopInitialization
  exact fun s i hl hi => ⟨fun h => exec_eq_failed_of_firstInvalid hl hi (firstInvalid_dlen h),
    fun hmin hmax h => exec_eq_failed_of_firstInvalid hl hi (firstInvalid_klen hmin hmax h),
    fun hmin hmax hk h => exec_eq_failed_of_firstInvalid hl hi (firstInvalid_inner hmin hmax hk h)⟩

/-- Settles O26: an uninitialized core with legal parameters is opened as `doInit`, the state `INIT` leaves but for its
answer, and no command reads the answer. -/
theorem implicitInitializationIsInit : Obligations.ImplicitInitializationIsInit := by
  unfold Obligations.ImplicitInitializationIsInit
  intro s hu hv
  refine ⟨_, exec_init_valid hv, fun len d hl => ?_, fun e => ?_⟩
  · rw [exec_respond, exec_absorb_opened hl (openHash_valid hu hv),
      exec_absorb_opened hl (openHash_initialized s.doInit_lc)]
  · rw [exec_respond, exec_final_opened e rfl (openHash_valid hu hv),
      exec_final_opened e rfl (openHash_initialized s.doInit_lc)]

/-- Settles O33: the length check, then the answer. -/
theorem dlenAnswersTheDigestLength : Obligations.DlenAnswersTheDigestLength := by
  unfold Obligations.DlenAnswersTheDigestLength
  exact fun s => ⟨withLength_agrees (n := 0) (p := []) rfl s _, fun p hl => exec_wrongLength (i := .dlen p) hl s⟩

/-- Settles O44: every element is read off `State.reset`. -/
theorem resetValues : Obligations.ResetValues := by
  unfold Obligations.ResetValues
  exact ⟨rfl, fun i => Vector.getElem_replicate i.isLt, rfl, rfl, rfl, rfl, fun _ => rfl, rfl, rfl, rfl,
    fun j => Vector.getElem_replicate j.isLt, rfl, rfl, rfl, rfl, rfl, fun j => Vector.getElem_replicate j.isLt, rfl,
    fun j => Vector.getElem_replicate j.isLt⟩

end Sys2Proof.Machine
end

section
/-! The compression core: rotations lose no bit, a round in its order, evaluations of one group commute, and what a
compression reads (41_compression_core.md). -/

namespace Sys2Proof.Machine

/-! ### Rotations -/

theorem ror64_getLsbD (w : Word) {n i : Nat} (hn : n < 64) (hi : i < 64) :
    (ror64 w n).getLsbD i = w.getLsbD ((i + n) % 64) := by
  rw [ror64_eq_rotateRight w hn, BitVec.getLsbD_rotateRight, Nat.mod_eq_of_lt hn]
  by_cases hlow : i < 64 - n
  · rw [show (i + n) % 64 = n + i by omega]
    simp [hlow]
  · rw [show (i + n) % 64 = i - (64 - n) by omega]
    simp [hlow, hi]

/-- Rotating by the rest of the word brings every bit back. -/
theorem ror64_ror64 (w : Word) {n : Nat} (hmin : 1 ≤ n) (hmax : n < 64) : ror64 (ror64 w n) (64 - n) = w := by
  refine BitVec.eq_of_getLsbD_eq fun i hi => ?_
  rw [ror64_getLsbD _ (by omega) hi, ror64_getLsbD _ hmax (Nat.mod_lt _ (by decide)),
    show ((i + (64 - n)) % 64 + n) % 64 = i by omega]

/-! ### One evaluation and its position -/

/-- The four indices of a position (R114). -/
def Position.indices (p : Position) : List (Fin 16) := [p.ia, p.ib, p.ic, p.id]

theorem Position.notMem_indices {p : Position} {k : Fin 16} :
    k ∉ p.indices ↔ k ≠ p.ia ∧ k ≠ p.ib ∧ k ≠ p.ic ∧ k ≠ p.id := by
  simp only [Position.indices, List.mem_cons, List.not_mem_nil, or_false, not_or, ne_eq]

theorem positions_nodup : ∀ j : Fin 8, positions[j].indices.Nodup := by decide

/-- Two positions of one group have no index in common (R118). -/
theorem positions_disjoint : ∀ i j : Fin 8, i ≠ j → (i.val < 4 ↔ j.val < 4) →
    ∀ k ∈ positions[i].indices, k ∉ positions[j].indices := by decide

section
variable {v w : Work} {p q : Position} {k : Fin 16} {x y : Word}

/-- An evaluation writes nowhere but at its four indices. -/
theorem applyG_getElem_of_notMem (h : k ∉ p.indices) (v : Work) (x y : Word) : (applyG v p x y)[k] = v[k] := by
  obtain ⟨ha, hb, hc, hd⟩ := Position.notMem_indices.1 h
  simp only [applyG_getElem, ha, hb, hc, hd, if_false]

/-- What an evaluation writes is a function of the words at its four indices. -/
theorem applyG_getElem_congr (h : ∀ k ∈ p.indices, v[k] = w[k]) (hk : k ∈ p.indices) (x y : Word) :
    (applyG v p x y)[k] = (applyG w p x y)[k] := by
  have hq : (⟨v[p.ia], v[p.ib], v[p.ic], v[p.id]⟩ : Quad) = ⟨w[p.ia], w[p.ib], w[p.ic], w[p.id]⟩ := by
    simp only [Position.indices, List.forall_mem_cons] at h
    obtain ⟨ha, hb, hc, hd, -⟩ := h
    rw [ha, hb, hc, hd]
  simp only [applyG_getElem, hq, h k hk]

/-- Evaluations at positions without a common index commute: neither reads or writes what the other does. -/
theorem applyG_comm (h : ∀ k ∈ p.indices, k ∉ q.indices) (v : Work) (x y x' y' : Word) :
    applyG (applyG v p x y) q x' y' = applyG (applyG v q x' y') p x y := by
  have hword : ∀ k : Fin 16, (applyG (applyG v p x y) q x' y')[k] = (applyG (applyG v q x' y') p x y)[k] := fun k => by
    by_cases hp : k ∈ p.indices
    · rw [applyG_getElem_of_notMem (h k hp)]
      exact applyG_getElem_congr (fun j hj => (applyG_getElem_of_notMem (h j hj) v x' y').symm) hp x y
    · rw [applyG_getElem_of_notMem hp]
      by_cases hq : k ∈ q.indices
      · exact applyG_getElem_congr (fun j hj => applyG_getElem_of_notMem (fun hjp => h j hjp hj) v x y) hq x' y'
      · rw [applyG_getElem_of_notMem hq, applyG_getElem_of_notMem hq, applyG_getElem_of_notMem hp]
  exact Vector.ext fun n hn => hword ⟨n, hn⟩

/-- The four results of an evaluation at four different indices. -/
theorem applyG_results (h : p.indices.Nodup) (v : Work) (x y : Word) :
    let q := mixG ⟨v[p.ia], v[p.ib], v[p.ic], v[p.id]⟩ x y
    let w := applyG v p x y
    w[p.ia] = q.a ∧ w[p.ib] = q.b ∧ w[p.ic] = q.c ∧ w[p.id] = q.d := by
  simp only [Position.indices, List.nodup_cons, List.mem_cons, List.not_mem_nil, or_false, not_or] at h
  obtain ⟨⟨hab, hac, had⟩, ⟨hbc, hbd⟩, hcd, -⟩ := h
  simp only [applyG_getElem, hab, hac, had, hbc, hbd, hcd, if_false, if_true, and_self]

end

/-! ### A row of `SIGMA` -/

theorem sigma_nodup : ∀ r : Fin 12, sigma[r].toList.Nodup := by decide

/-- A row of `SIGMA` is a permutation: sixteen different numbers below sixteen (R114). -/
theorem sigma_bijective (r : Fin 12) : Function.Bijective fun i : Fin 16 => sigma[r][i] := by
  refine Finite.injective_iff_bijective.1 fun i j hij => Fin.ext ?_
  exact (List.Nodup.getElem_inj_iff (sigma_nodup r) (hi := by simp) (hj := by simp)).1 (by simpa using hij)

/-- The round written out: the eight evaluations of the table, in its order (R114). -/
theorem mixRound_eq (m : Message) (v : Work) (r : Fin 12) :
    mixRound m v r = stepG m r (stepG m r (stepG m r (stepG m r (stepG m r (stepG m r (stepG m r (stepG m r v 0) 1) 2)
      3) 4) 5) 6) 7 := by
  have hsteps : List.finRange 8 = [0, 1, 2, 3, 4, 5, 6, 7] := by decide
  simp only [mixRound, hsteps, List.foldl_cons, List.foldl_nil]

/-! ### What a compression reads -/

theorem compress_congr {m m' : Memory} (h : ∀ a, a < 128 → m.read a = m'.read a) (hs : Vector Word 8)
    (t0 t1 f0 f1 : Word) : compress hs m t0 t1 f0 f1 = compress hs m' t0 t1 f0 f1 := by
  rw [compress, compress, messageWords_congr h]

/-! ### The obligations -/

/-- Settles O36: `ror64_getLsbD`, and that the two distances add up to the word. -/
theorem rotationMovesEveryBit : Obligations.RotationMovesEveryBit := by
  unfold Obligations.RotationMovesEveryBit
  exact fun w n hmin hmax => ⟨fun i hi => ror64_getLsbD w (by omega) hi, ror64_ror64 w hmin (by omega)⟩

/-- Settles O38: the round loop written out, an evaluation by its indices, and the rows as permutations. -/
theorem roundAppliesTheEightPositionsInOrder : Obligations.RoundAppliesTheEightPositionsInOrder := by
  unfold Obligations.RoundAppliesTheEightPositionsInOrder
  refine ⟨fun m v r => mixRound_eq m v r, fun v j x y => ?_, fun r k => ?_⟩
  · obtain ⟨ha, hb, hc, hd⟩ := applyG_results (positions_nodup j) v x y
    exact ⟨ha, hb, hc, hd, fun k hka hkb hkc hkd =>
      applyG_getElem_of_notMem (Position.notMem_indices.2 ⟨hka, hkb, hkc, hkd⟩) v x y⟩
  · exact (sigma_bijective r).existsUnique k

/-- Settles O39: two positions of one group share no index, and such evaluations commute. -/
theorem evaluationsOfOneGroupCommute : Obligations.EvaluationsOfOneGroupCommute := by
  unfold Obligations.EvaluationsOfOneGroupCommute
  exact fun v i j x y x' y' hne hgroup => applyG_comm (positions_disjoint i j hne hgroup) v x y x' y'

/-- Settles O41: the block is read as message words only. -/
theorem compressionReadsTheBlockOnly : Obligations.CompressionReadsTheBlockOnly := by
  unfold Obligations.CompressionReadsTheBlockOnly
  exact fun h m m' t0 t1 f0 f1 hm => compress_congr hm h t0 t1 f0 f1

end Sys2Proof.Machine
end

section
/-! The counter, absorbing, finalizing and the digest (42_streaming_digest.md R133 to R136, R139). -/

namespace Sys2Proof.Machine

variable {s t : State}

/-! ### The counter -/

/-- The increment carries into the high word exactly when the low word wraps (R133). -/
theorem count_ctrAdd (s : State) {n : Nat} (hn : n ≤ 128) : (s.ctrAdd n).count = (s.count + n) % 2 ^ 128 := by
  have h0 := s.t0.isLt
  have h1 := s.t1.isLt
  simp only [State.count, State.ctrAdd_t0, State.ctrAdd_t1, BitVec.toNat_add, BitVec.toNat_ofNat]
  split <;> simp only [BitVec.ofNat_eq_ofNat, BitVec.toNat_ofNat] <;> omega

/-- The words of the counter after an increment, as words of the count. -/
theorem ctrAdd_t0_eq (s : State) {n : Nat} (hn : n ≤ 128) : (s.ctrAdd n).t0 = countLow (s.count + n) := by
  rw [← countLow_count, count_ctrAdd s hn, countLow_mod]

theorem ctrAdd_t1_eq (s : State) {n : Nat} (hn : n ≤ 128) : (s.ctrAdd n).t1 = countHigh (s.count + n) := by
  rw [← countHigh_count, count_ctrAdd s hn, countHigh_mod]

/-- Equal counts are equal words. -/
theorem words_eq_of_count_eq (h : t.count = s.count) : t.t0 = s.t0 ∧ t.t1 = s.t1 := by
  rw [← countLow_count t, ← countHigh_count t, h, countLow_count, countHigh_count]
  exact ⟨rfl, rfl⟩

theorem count_lt (s : State) : s.count < 2 ^ 128 := by
  have h0 := s.t0.isLt
  have h1 := s.t1.isLt
  rw [State.count]
  omega

/-! ### Absorbing in closed form -/

/-- The full blocks of the pending bytes and a payload. -/
def fullBlocks (s : State) (d : List Byte) : Nat := (pendingBytes s ++ d).length / 128

/-- `t` is `s` after a payload, the blocks compressed and the rest pending, in the closed form of
42_streaming_digest.md R138. -/
structure Absorbed (s : State) (d : List Byte) (t : State) : Prop where
  h : t.h = chainBlocks s.h s.count (pendingBytes s ++ d) (fullBlocks s d)
  count : t.count = (s.count + 128 * fullBlocks s d) % 2 ^ 128
  fill : t.buf_len.toNat = (s.buf_len.toNat + d.length) % 128
  pending : pendingBytes t = (pendingBytes s ++ d).drop (128 * fullBlocks s d)
  rest : ∀ a, t.buf_len.toNat ≤ a → t.buf.read a = if fullBlocks s d = 0 then s.buf.read a else 0

theorem fullBlocks_eq (s : State) (d : List Byte) : fullBlocks s d = (s.buf_len.toNat + d.length) / 128 := by
  rw [fullBlocks, List.length_append, length_pendingBytes]

/-- With no byte nothing changes. -/
theorem Absorbed.nil (hfill : s.buf_len.toNat ≤ 127) : Absorbed s [] s := by
  have hfull : fullBlocks s [] = 0 := by
    rw [fullBlocks_eq, List.length_nil]
    omega
  have hcount := count_lt s
  exact {
    h := by rw [hfull, chainBlocks]
    count := by rw [hfull]; omega
    fill := by rw [List.length_nil]; omega
    pending := by rw [hfull, Nat.mul_zero, List.drop_zero, List.append_nil]
    rest := fun a _ => by rw [hfull, if_pos rfl] }

/-- A byte that does not fill the block is pending before the others. -/
theorem Absorbed.push {b : Byte} {bs : List Byte} (hwf : s.buf.wf = true) (hfill : s.buf_len.toNat < 127)
    (h : Absorbed (s.pushByte b) bs t) : Absorbed s (b :: bs) t := by
  have hlen := pushByte_fill b (Nat.le_of_lt hfill)
  have hdata : pendingBytes (s.pushByte b) ++ bs = pendingBytes s ++ b :: bs := by
    rw [pendingBytes_pushByte b hwf (Nat.le_of_lt hfill), List.append_assoc, List.singleton_append]
  have hfull : fullBlocks (s.pushByte b) bs = fullBlocks s (b :: bs) := by rw [fullBlocks, fullBlocks, hdata]
  obtain ⟨hh, hcount, hf, hpending, hrest⟩ := h
  rw [hdata, hfull] at hh hpending
  rw [hfull] at hcount
  refine ⟨hh, hcount, ?_, hpending, fun a ha => ?_⟩
  · rw [hf, hlen, List.length_cons]
    omega
  · rw [hrest a ha, hfull]
    split
    · next hzero =>
      rw [fullBlocks_eq, List.length_cons] at hzero
      rw [State.pushByte_buf, Memory.read_write hwf, if_neg (by omega)]
    · rfl

/-- The buffer that a byte has filled reads as the block of its pending bytes. -/
theorem read_pushByte_eq_blockAt (b : Byte) (hwf : s.buf.wf = true) (hfill : s.buf_len.toNat = 127) {a : Nat}
    (ha : a < 128) : (s.pushByte b).buf.read a = (blockAt (pendingBytes s ++ [b]) 0).read a := by
  have hlen := pushByte_fill b (Nat.le_of_eq hfill)
  rw [← pendingBytes_pushByte b hwf (Nat.le_of_eq hfill), read_blockAt (by rw [length_pendingBytes]; omega) a ha,
    pendingBytes_getD a (by omega)]

/-- A byte that fills the block: the first block is compressed, and the others follow from an empty buffer. -/
theorem Absorbed.flush {b : Byte} {bs : List Byte} (hwf : s.buf.wf = true) (hfill : s.buf_len.toNat = 127)
    (h : Absorbed (s.pushByte b).flushBlock bs t) : Absorbed s (b :: bs) t := by
  have hblock : (pendingBytes s ++ [b]).length = 128 := by simp [length_pendingBytes, hfill]
  have hdata : pendingBytes s ++ b :: bs = (pendingBytes s ++ [b]) ++ bs := by simp
  have hzero : (s.pushByte b).flushBlock.buf_len.toNat = 0 := rfl
  have hfull : fullBlocks s (b :: bs) = fullBlocks (s.pushByte b).flushBlock bs + 1 := by
    rw [fullBlocks_eq, fullBlocks_eq, List.length_cons, hfill, hzero]
    omega
  have hc : (s.pushByte b).flushBlock.count = (s.count + 128) % 2 ^ 128 := count_ctrAdd (s.pushByte b) le_rfl
  have hempty : pendingBytes (s.pushByte b).flushBlock = [] := rfl
  obtain ⟨hh, hcount, hf, hpending, hrest⟩ := h
  rw [hempty, List.nil_append] at hh hpending
  refine ⟨?_, ?_, ?_, ?_, fun a ha => ?_⟩
  · rw [hh, hdata, hfull, chainBlocks_cons _ _ hblock, chainBlocks_mod _ _ (s.count + 128) (by rw [hc, Nat.mod_mod]),
      State.flushBlock_h, compress_congr fun a ha => read_pushByte_eq_blockAt b hwf hfill ha,
      ctrAdd_t0_eq _ le_rfl, ctrAdd_t1_eq _ le_rfl]
    rfl
  · rw [hcount, hc, hfull]
    omega
  · rw [hf, hzero, List.length_cons, hfill]
    omega
  · rw [hpending, hdata, hfull, Nat.mul_add, Nat.mul_one, Nat.add_comm, ← hblock, List.drop_length_add_append, hblock]
  · rw [hrest a ha, hfull, if_neg (Nat.succ_ne_zero _), State.flushBlock_buf, Memory.read_zeroed, ite_self]

/-- Every payload on an initialized core with a fill below 128 (R134). -/
theorem absorbBytes_absorbed (d : List Byte) (hwf : s.buf.wf = true) (hfill : s.buf_len.toNat ≤ 127) :
    ∃ t, absorbBytes d s = .ok t ∧ Absorbed s d t := by
  induction d generalizing s with
  | nil => exact ⟨s, rfl, Absorbed.nil hfill⟩
  | cons b bs ih =>
    simp only [absorbBytes]
    obtain ⟨hlt, hok⟩ | ⟨heq, hok⟩ | ⟨hge, -⟩ := absorbByte_cases b s
    · have hlen := pushByte_fill b hfill
      obtain ⟨t, ht, habs⟩ := ih (s := s.pushByte b) (Memory.wf_write hwf b (show s.buf_len.toNat < 128 by omega))
        (by omega)
      exact ⟨t, by rw [hok]; exact ht, habs.push hwf hlt⟩
    · obtain ⟨t, ht, habs⟩ := ih (s := (s.pushByte b).flushBlock) rfl (Nat.zero_le _)
      exact ⟨t, by rw [hok]; exact ht, habs.flush hwf heq⟩
    · omega

/-- `ABSORB` on an initialized core: the closed form, its frame and the answer. -/
theorem exec_absorb_initialized {len : BitVec 16} {d : List Byte} (hlc : s.lc = .initialized) (hwf : s.buf.wf = true)
    (hfill : s.buf_len.toNat ≤ 127) (hl : d.length = len.toNat) :
    ∃ u, exec (.absorb len d) s = .next (u.respond []) ∧ Absorbed s d u ∧ AbsorbFrame s u := by
  obtain ⟨u, hu, habs⟩ := absorbBytes_absorbed d hwf hfill
  refine ⟨u, ?_, habs, absorbBytes_frame hu⟩
  rw [exec_absorb_opened hl (openHash_initialized hlc), hu]

/-- Bytes that fill no block stand behind the pending ones, and no other byte changes. -/
theorem Absorbed.read_of_no_block {d : List Byte} (h : Absorbed s d t) (hfull : s.buf_len.toNat + d.length < 128) :
    t.h = s.h ∧ t.count = s.count ∧ t.buf_len.toNat = s.buf_len.toNat + d.length ∧
      pendingBytes t = pendingBytes s ++ d ∧ ∀ a, t.buf_len.toNat ≤ a → t.buf.read a = s.buf.read a := by
  have hzero : fullBlocks s d = 0 := by
    rw [fullBlocks_eq]
    omega
  obtain ⟨hh, hcount, hf, hpending, hrest⟩ := h
  rw [hzero] at hh hcount hpending hrest
  rw [Nat.mul_zero, Nat.add_zero, Nat.mod_eq_of_lt (count_lt s)] at hcount
  exact ⟨hh, hcount, hf.trans (Nat.mod_eq_of_lt hfull), hpending, hrest⟩

/-! ### The obligations -/

/-- Settles O27: `count_ctrAdd`; the increment writes the two words alone. -/
theorem counterIncrementIsA128BitAddition : Obligations.CounterIncrementIsA128BitAddition := by
  unfold Obligations.CounterIncrementIsA128BitAddition
  exact fun s n hn => ⟨count_ctrAdd s hn, rfl⟩

/-- Settles O28: the closed form without a full block, read byte by byte. -/
theorem absorbStoresPendingBytes : Obligations.AbsorbStoresPendingBytes := by
  unfold Obligations.AbsorbStoresPendingBytes
  intro s len d hlc hwf hl hlt
  obtain ⟨u, hu, habs, hframe⟩ := exec_absorb_initialized hlc hwf (by omega) hl
  obtain ⟨hh, hcount, hfill, hpending, hrest⟩ := habs.read_of_no_block (by omega)
  obtain ⟨ht0, ht1⟩ := words_eq_of_count_eq hcount
  have hbyte : ∀ a, a < u.buf_len.toNat → some (u.buf.read a) = (pendingBytes s ++ d)[a]? := fun a ha => by
    rw [← hpending, pendingBytes_getElem?, if_pos ha]
  have hlen := length_pendingBytes s
  refine ⟨_, hu, fun k hk => Option.some.inj ?_, fun a ha => ?_, hfill.trans (by rw [hl]), hframe.lc.trans hlc, hh, ht0,
    ht1, hframe.f0, hframe.f1, { hframe.params with }, ⟨rfl, hframe.cmds⟩⟩
  · calc some (u.buf.read (absorbOffset s + k))
        = (pendingBytes s ++ d)[s.buf_len.toNat + k]? := hbyte _ (by rw [absorbOffset]; omega)
      _ = some d[k] := by
        rw [List.getElem?_append_right (by omega), hlen, Nat.add_sub_cancel_left, List.getElem?_eq_getElem hk]
  · obtain hbelow | habove := ha
    · rw [absorbOffset] at hbelow
      refine Option.some.inj ((hbyte a (by omega)).trans ?_)
      rw [List.getElem?_append_left (by omega), pendingBytes_getElem?, if_pos hbelow]
    · exact hrest a (by rwa [hfill])

/-- Settles O29: `exec_absorb_initialized`. -/
theorem absorbCompressesEveryFullBlock : Obligations.AbsorbCompressesEveryFullBlock := by
  unfold Obligations.AbsorbCompressesEveryFullBlock
  intro s len d hlc hwf hfill hl
  obtain ⟨u, hu, habs, hframe⟩ := exec_absorb_initialized hlc hwf hfill hl
  exact ⟨_, hu, habs.h, habs.count, hl ▸ habs.fill, habs.pending, habs.rest, hframe.lc.trans hlc, hframe.f0, hframe.f1,
    { hframe.params with }, ⟨rfl, hframe.cmds⟩⟩

/-- Settles O30: a core that is not opened answers the second piece as the first; an opened one absorbs the bytes one
after the other, by `absorbBytes_append`. -/
theorem absorbIsIndependentOfChunking : Obligations.AbsorbIsIndependentOfChunking := by
  unfold Obligations.AbsorbIsIndependentOfChunking
  intro s l1 l2 l d1 d2 h1 h2 hl
  cases ho : openHash s with
  | error code =>
    rw [exec_absorb_unopened hl ho, exec_absorb_unopened h1 ho]
    simp only [exec_failed, exec_absorb_unopened h2 ho]
  | ok o =>
    rw [exec_absorb_opened hl ho, exec_absorb_opened h1 ho, absorbBytes_append]
    cases ha : absorbBytes d1 o with
    | error f => rfl
    | ok u =>
      have hu : u.lc = .initialized := (absorbBytes_frame ha).lc.trans (openHash_frame ho).1
      simp only [exec_respond, exec_absorb_opened h2 (openHash_initialized hu)]

/-- Settles O31: `FINAL` on an initialized core is `finalize`, answered. -/
theorem finalCompressesOnceAndCloses : Obligations.FinalCompressesOnceAndCloses := by
  unfold Obligations.FinalCompressesOnceAndCloses
  intro s e hlc hfill
  exact ⟨_, exec_final_opened e rfl (openHash_initialized hlc), count_ctrAdd s hfill, rfl, rfl,
    fun a => Memory.read_zeroFrom _ _ a, rfl, rfl, rfl, ⟨rfl, rfl, rfl, rfl, rfl, rfl, rfl, rfl, rfl, rfl, rfl⟩,
    ⟨rfl, rfl⟩⟩

/-- Settles O32: the state words are written one after the other, and 64 bytes are there to take from. -/
theorem digestIsTruncatedLittleEndianState : Obligations.DigestIsTruncatedLittleEndianState := by
  unfold Obligations.DigestIsTruncatedLittleEndianState
  intro h n _ hn
  refine ⟨(length_digestBytes h n).trans (min_eq_left hn), fun j hj => ?_⟩
  rw [digestBytes, List.getElem?_take_of_lt hj, getElem?_flatMap_bytes64 _ _ (by simp), Vector.getElem_toList]

end Sys2Proof.Machine
end

section
/-! Runs of the core and of a platform: the hashing state of an uninitialized core is unobservable, a run of `INIT`,
`ABSORB` commands and `FINAL` is the closed form of the hash, and cores are independent (10_state.md R40,
42_streaming_digest.md R138, 60_exceptions.md R168). -/

namespace Sys2Proof.Machine

variable {s t u : State}

theorem run_of_step (h : step s = .next t) (k : Nat) : core.run (k + 1) s = core.run k t := by
  simp only [Host.Core.run, show core.step s = .next t from h]

theorem run_congr_of_step_eq (h : step s = step t) (k : Nat) : core.run (k + 1) s = core.run (k + 1) t := by
  simp only [Host.Core.run, show core.step s = core.step t from h]

/-! ### Two cores that differ in the wiped hashing state alone -/

theorem SameToTheHost.refl (r : Result) : SameToTheHost r r := by
  cases r with
  | next s => exact ⟨rfl, rfl⟩
  | fault f => exact rfl
  | refused q => exact rfl

/-- After a wipe nothing of the difference is left. -/
theorem DifferInWipedState.wipe_eq (h : DifferInWipedState s t) : s.wipe = t.wipe := by
  obtain ⟨-, -, hp, hcmds, hresp⟩ := h
  rw [State.wipe, State.wipe, State.mk.injEq]
  exact ⟨rfl, rfl, rfl, rfl, rfl, rfl, rfl, rfl, hp.dlen.symm, hp.klen.symm, hp.key.symm, hp.fanout.symm, hp.depth.symm,
    hp.leaf.symm, hp.inner.symm, hp.salt_en.symm, hp.salt.symm, hp.pers_en.symm, hp.pers.symm, hcmds.symm, hresp.symm⟩

theorem DifferInWipedState.failed (h : DifferInWipedState s t) (code : Status) :
    DifferInWipedState (failed s code) (failed t code) :=
  ⟨h.lc_left, h.lc_right, { h.params with }, h.cmds, rfl⟩

theorem DifferInWipedState.respond (h : DifferInWipedState s t) (data : List Byte) :
    DifferInWipedState (s.respond data) (t.respond data) :=
  ⟨h.lc_left, h.lc_right, { h.params with }, h.cmds, rfl⟩

/-- An initialization overwrites the hashing state. -/
theorem DifferInWipedState.doInit_eq (h : DifferInWipedState s t) : s.doInit = t.doInit :=
  show s.wipe.doInit = t.wipe.doInit from congrArg State.doInit h.wipe_eq

theorem DifferInWipedState.firstInvalid_eq (h : DifferInWipedState s t) : firstInvalid s = firstInvalid t :=
  show firstInvalid s.wipe = firstInvalid t.wipe from congrArg firstInvalid h.wipe_eq

/-- Two outcomes are equal, or they go on with states that differ in the wiped hashing state alone. -/
def EqualOrDiffer (a b : Result) : Prop :=
  a = b ∨ ∃ s t, a = .next s ∧ b = .next t ∧ DifferInWipedState s t

/-- A `SETP` command fails alike, or wipes the difference: its register write leaves the hashing state alone. -/
theorem setParam_equalOrDiffer {n : Nat} {p : List Byte} {inv : Option Status} {write : State → State}
    (h : DifferInWipedState s t) (hl : p.length = n) (hw : ∀ u : State, (write u).wipe = write u.wipe) :
    EqualOrDiffer (setParam n p inv (write s) s) (setParam n p inv (write t) t) := by
  cases inv with
  | none => exact .inl (by rw [setParam_stores hl rfl, setParam_stores hl rfl, hw, hw, h.wipe_eq])
  | some code => exact .inr ⟨_, _, setParam_illegal hl rfl _ s, setParam_illegal hl rfl _ t, h.failed code⟩

/-- `INIT`, `ABSORB` and `FINAL` fail alike, or begin with the same initialization. -/
theorem exec_equalOrDiffer_of_initializes {i : Instr} (h : DifferInWipedState s t) (hl : i.LengthAgrees)
    (hi : (∃ p, i = .init p) ∨ (∃ len d, i = .absorb len d) ∨ ∃ e p, i = .final e p) :
    EqualOrDiffer (exec i s) (exec i t) := by
  have hfirst := h.firstInvalid_eq
  cases hf : firstInvalid s with
  | some code =>
    exact .inr ⟨_, _, exec_eq_failed_of_firstInvalid hl (hi.imp_right fun hi => ⟨h.lc_left, hi⟩) hf,
      exec_eq_failed_of_firstInvalid hl (hi.imp_right fun hi => ⟨h.lc_right, hi⟩) (hfirst ▸ hf), h.failed code⟩
  | none =>
    have hs := firstInvalid_eq_none.1 hf
    have ht := firstInvalid_eq_none.1 (hfirst ▸ hf)
    have hos := openHash_valid h.lc_left hs
    have hot := h.doInit_eq ▸ openHash_valid h.lc_right ht
    refine .inl ?_
    obtain ⟨p, rfl⟩ | ⟨len, d, rfl⟩ | ⟨e, p, rfl⟩ := hi
    · obtain rfl := List.length_eq_zero_iff.1 hl
      rw [exec_init_valid hs, exec_init_valid ht, h.doInit_eq]
    · exact (exec_absorb_opened hl hos).trans (exec_absorb_opened hl hot).symm
    · exact (exec_final_opened e hl hos).trans (exec_final_opened e hl hot).symm

theorem exec_equalOrDiffer (h : DifferInWipedState s t) (i : Instr) : EqualOrDiffer (exec i s) (exec i t) := by
  by_cases hl : i.LengthAgrees
  case neg => exact .inr ⟨_, _, exec_wrongLength hl s, exec_wrongLength hl t, h.failed _⟩
  cases i with
  | setpDlen p =>
    exact setParam_equalOrDiffer
      (write := fun u => { u with p_dlen := scalarOperand p }) h hl fun _ => rfl
  | setpKey len p =>
    exact setParam_equalOrDiffer
      (write := fun u => { u with p_klen := len.setWidth 7, p_key := bytesOperand 64 p }) h hl fun _ => rfl
  | setpSalt len p =>
    exact setParam_equalOrDiffer
      (write := fun u => { u with p_salt_en := decide (len ≠ 0), p_salt := bytesOperand 16 p }) h hl fun _ => rfl
  | setpPers len p =>
    exact setParam_equalOrDiffer
      (write := fun u => { u with p_pers_en := decide (len ≠ 0), p_pers := bytesOperand 16 p }) h hl fun _ => rfl
  | setpFanout p =>
    exact setParam_equalOrDiffer (inv := none)
      (write := fun u => { u with p_fanout := scalarOperand p }) h hl fun _ => rfl
  | setpDepth p =>
    exact setParam_equalOrDiffer (inv := none)
      (write := fun u => { u with p_depth := scalarOperand p }) h hl fun _ => rfl
  | setpLeaf p =>
    exact setParam_equalOrDiffer (inv := none)
      (write := fun u => { u with p_leaf := leafOperand p }) h hl fun _ => rfl
  | setpInner p =>
    exact setParam_equalOrDiffer
      (write := fun u => { u with p_inner := scalarOperand p }) h hl fun _ => rfl
  | init p => exact exec_equalOrDiffer_of_initializes h hl (.inl ⟨p, rfl⟩)
  | absorb len d => exact exec_equalOrDiffer_of_initializes h hl (.inr (.inl ⟨len, d, rfl⟩))
  | final e p => exact exec_equalOrDiffer_of_initializes h hl (.inr (.inr ⟨e, p, rfl⟩))
  | dlen p =>
    refine .inr ⟨_, _, withLength_agrees hl s _, withLength_agrees hl t _, ?_⟩
    rw [h.params.dlen]
    exact h.respond _

theorem step_equalOrDiffer (h : DifferInWipedState s t) : EqualOrDiffer (step s) (step t) := by
  cases hs : s.cmds with
  | nil => exact .inr ⟨s, t, step_idle hs, step_idle (h.cmds.trans hs), h⟩
  | cons c rest =>
    have ht : t.cmds = c :: rest := h.cmds.trans hs
    have hrest : DifferInWipedState { s with cmds := rest } { t with cmds := rest } :=
      ⟨h.lc_left, h.lc_right, { h.params with }, rfl, h.resp⟩
    cases hd : decode c with
    | error e => exact .inr ⟨_, _, step_reserved hs hd, step_reserved ht hd, hrest.failed _⟩
    | ok i =>
      rw [step_executes hs hd, step_executes ht hd]
      exact exec_equalOrDiffer hrest i

/-! ### A hash command by command -/

/-- The state with other ports: what waits and what was answered last (00_scope.md R7). -/
def State.withPorts (s : State) (cmds : List Command) (resp : Option Response) : State :=
  { s with cmds := cmds, resp := resp }

theorem absorbBytes_withPorts {d : List Byte} (h : absorbBytes d s = .ok u) (cmds : List Command)
    (resp : Option Response) : absorbBytes d (s.withPorts cmds resp) = .ok (u.withPorts cmds resp) := by
  rw [State.withPorts, absorbBytes_resp d { s with cmds := cmds }, absorbBytes_cmds, h]
  rfl

/-- A payload of a command fits the `len` field of its header (30_encoding.md R71). -/
theorem length_eq_toNat_ofNat {d : List Byte} (h : d.length ≤ 65535) : d.length = (BitVec.ofNat 16 d.length).toNat := by
  rw [BitVec.toNat_ofNat, Nat.mod_eq_of_lt (by omega)]

theorem step_initCommand {rest : List Command} (hv : s.Valid) (hc : s.cmds = encode (.init []) :: rest) :
    step s = .next (s.doInit.withPorts rest (some ⟨.ok, []⟩)) :=
  (step_executes hc (decode_encode _)).trans (exec_init_valid { hv with })

theorem step_absorbCommand {d : List Byte} {rest : List Command} (hlc : s.lc = .initialized)
    (hc : s.cmds = absorbCommand d :: rest) (hd : d.length ≤ 65535) (ha : absorbBytes d s = .ok u) :
    step s = .next (u.withPorts rest (some ⟨.ok, []⟩)) := by
  rw [step_executes hc (decode_encode _), exec_absorb_opened (length_eq_toNat_ofNat hd)
    (openHash_initialized (s := { s with cmds := rest }) hlc), absorbBytes_cmds, ha]
  rfl

theorem step_finalCommand {e : Bool} {rest : List Command} (hlc : s.lc = .initialized)
    (hc : s.cmds = encode (.final e []) :: rest) :
    step s = .next ((s.finalize e).withPorts rest (some ⟨.ok, digestBytes (s.finalize e).h s.p_dlen.toNat⟩)) :=
  (step_executes hc (decode_encode _)).trans
    (exec_final_opened e rfl (openHash_initialized (s := { s with cmds := rest }) hlc))

/-- Any number of `ABSORB` commands absorb the concatenation of their payloads (R139). -/
theorem run_absorbCommands {pieces : List (List Byte)} {rest : List Command} (k : Nat) (hlc : s.lc = .initialized)
    (hc : s.cmds = pieces.map absorbCommand ++ rest) (hl : ∀ d ∈ pieces, d.length ≤ 65535)
    (ha : absorbBytes pieces.flatten s = .ok u) :
    ∃ q, core.run (pieces.length + k) s = core.run k (u.withPorts rest q) := by
  induction pieces generalizing s u with
  | nil =>
    obtain rfl : s = u := Except.ok.inj ha
    obtain rfl : s.cmds = rest := hc
    exact ⟨s.resp, by rw [List.length_nil, Nat.zero_add]; rfl⟩
  | cons d ds ih =>
    rw [List.forall_mem_cons] at hl
    rw [List.flatten_cons, absorbBytes_append] at ha
    cases hd : absorbBytes d s with
    | error f => simp [hd] at ha
    | ok v =>
      rw [hd] at ha
      have hstep := step_absorbCommand hlc hc hl.1 hd
      have hv : v.lc = .initialized := (absorbBytes_frame hd).lc.trans hlc
      obtain ⟨q, hq⟩ := ih (s := v.withPorts (ds.map absorbCommand ++ rest) (some ⟨.ok, []⟩)) hv rfl hl.2
        (absorbBytes_withPorts ha _ _)
      refine ⟨q, ?_⟩
      rw [List.length_cons, Nat.add_right_comm]
      exact (run_of_step hstep _).trans hq

/-! ### The closed form -/

theorem State.count_doInit (s : State) : s.doInit.count = 0 := by
  rw [State.count, State.doInit_t0, State.doInit_t1]
  decide

/-- After an initialization the key bytes are pending (R131). -/
theorem pendingBytes_doInit (h : s.p_klen.toNat ≤ 64) : pendingBytes s.doInit = keyBytes s := by
  have hlen : (pendingBytes s.doInit).length = s.p_klen.toNat := by
    rw [length_pendingBytes, State.doInit_buf_len, toNat_keyFill]
  refine List.ext_getElem (by rw [hlen, length_keyBytes, min_eq_left h]) fun a ha _ => ?_
  have hread := read_doInit_key (s := s) ⟨a, by omega⟩ (hlen ▸ ha)
  simpa [pendingBytes, keyBytes] using hread

/-- Block `k` is the first block of what is left after the blocks before it. -/
theorem blockAt_eq_blockAt_drop (data : List Byte) (k : Nat) : blockAt data k = blockAt (data.drop (128 * k)) 0 := by
  simp [blockAt]

/-- The state of the final compression is that of the closed form (R138). -/
theorem Absorbed.finalize_h {d : List Byte} (h : Absorbed s d t) (hcount : s.count = 0) (e : Bool) :
    (t.finalize e).h =
      compress (chainBlocks s.h 0 (pendingBytes s ++ d) (fullBlocks s d))
        (blockAt (pendingBytes s ++ d) (fullBlocks s d)) (countLow (pendingBytes s ++ d).length)
        (countHigh (pendingBytes s ++ d).length) ones64 (layerFlag e) := by
  obtain ⟨hh, hc, hfill, hpending, -⟩ := h
  have hlen : (pendingBytes s ++ d).length = s.buf_len.toNat + d.length := by
    rw [List.length_append, length_pendingBytes]
  have hfull := fullBlocks_eq s d
  have hle : t.buf_len.toNat ≤ 128 := by omega
  have hmod : (t.count + t.buf_len.toNat) % 2 ^ 128 = (pendingBytes s ++ d).length % 2 ^ 128 := by omega
  have hblock : ∀ a, a < 128 → (t.buf.zeroFrom t.buf_len.toNat).read a =
      (blockAt (pendingBytes s ++ d) (fullBlocks s d)).read a := fun a ha => by
    rw [blockAt_eq_blockAt_drop, ← hpending, read_blockAt (by rwa [length_pendingBytes]) a ha, Memory.read_zeroFrom]
    split
    · next hin => rw [pendingBytes_getD a hin]
    · next hout => rw [List.getD_eq_default _ _ (by rw [length_pendingBytes]; omega)]
  have ht0 : (t.ctrAdd t.buf_len.toNat).t0 = countLow (pendingBytes s ++ d).length := by
    rw [ctrAdd_t0_eq t hle, ← countLow_mod, hmod, countLow_mod]
  have ht1 : (t.ctrAdd t.buf_len.toNat).t1 = countHigh (pendingBytes s ++ d).length := by
    rw [ctrAdd_t1_eq t hle, ← countHigh_mod, hmod, countHigh_mod]
  rw [State.finalize_h, hh, hcount, compress_congr hblock, ht0, ht1]

/-- After an initialization and a payload `FINAL` answers the digest of the closed form (R138). -/
theorem Absorbed.digest_eq_referenceDigest {d : List Byte} (h : Absorbed s.doInit d t) (hk : s.p_klen.toNat ≤ 64)
    (n : Nat) (e : Bool) : digestBytes (t.finalize e).h n = referenceDigest (seed s) n e (keyBytes s ++ d) := by
  rw [h.finalize_h s.count_doInit, fullBlocks, pendingBytes_doInit hk]
  rfl

/-! ### The obligations -/

/-- Settles O49: as long as the two cores differ they give the same answers, and an outcome that hashes is the same. -/
theorem wipedHashingStateIsUnobservable : Obligations.WipedHashingStateIsUnobservable := by
  unfold Obligations.WipedHashingStateIsUnobservable
  intro k
  induction k with
  | zero => exact fun s t h => ⟨h.resp.symm, h.cmds.symm⟩
  | succ k ih =>
    intro s t h
    obtain heq | ⟨s', t', hs, ht, h'⟩ := step_equalOrDiffer h
    · rw [run_congr_of_step_eq heq]
      exact SameToTheHost.refl _
    · rw [run_of_step hs, run_of_step ht]
      exact ih s' t' h'

/-- Settles O50: `INIT` leaves the key bytes pending, the `ABSORB` commands absorb the concatenated payloads, and
`FINAL` compresses what is left. -/
theorem hashOfTheConcatenatedPayloads : Obligations.HashOfTheConcatenatedPayloads := by
  unfold Obligations.HashOfTheConcatenatedPayloads
  intro s pieces e hv hl hc
  have hklen := hv.klen_max
  obtain ⟨u, hu, habs⟩ := absorbBytes_absorbed (s := s.doInit) pieces.flatten (wf_doInit s)
    (by rw [State.doInit_buf_len, toNat_keyFill]; omega)
  have hframe := absorbBytes_frame hu
  have hinit := step_initCommand hv hc
  obtain ⟨q, hq⟩ := run_absorbCommands 1 rfl rfl hl (absorbBytes_withPorts hu _ _)
  have hfinal := step_finalCommand (s := u.withPorts [encode (.final e [])] q) hframe.lc rfl
  refine ⟨_, (run_of_step hinit _).trans (hq.trans (run_of_step hfinal 0)), rfl, rfl, { hframe.params with }, ?_⟩
  have hdlen : u.p_dlen = s.p_dlen := hframe.params.dlen
  rw [← habs.digest_eq_referenceDigest hklen, ← hdlen]
  rfl

/-- Settles O51: a step of the platform writes the one place of the list. -/
theorem coresOfAPlatformAreIndependent : Obligations.CoresOfAPlatformAreIndependent := by
  unfold Obligations.CoresOfAPlatformAreIndependent
  intro p p' k s hk h
  simp only [platformStep, hk] at h
  cases hs : step s with
  | fault f => simp [hs] at h
  | refused q => simp [hs] at h
  | next t =>
    simp only [hs, Host.Outcome.next.injEq] at h
    subst h
    have hlt : k < p.cores.length := (List.getElem?_eq_some_iff.1 hk).1
    exact ⟨⟨t, rfl, List.getElem?_set_self hlt⟩, fun j hj => List.getElem?_set_ne hj.symm⟩

end Sys2Proof.Machine
end
